-- ==== Sys2Proof/Word.lean ====
section
/-! DEFINITION. The bit vectors the engine works on: bytes, 32-bit command words, and 64-bit cells that hold one hash word
of either width (spec/00_scope.md R13, spec/10_state.md R34). Every value is unsigned; bit 0 is the least significant bit. -/

namespace Sys2Proof

/-- A byte, the unit of data transfer (R66). -/
abbrev Byte := BitVec 8

/-- A 32-bit command word (R81). -/
abbrev CommandWord := BitVec 32

/-- A 64-bit cell holding one hash state word; for the 32-bit variants its bits [63:32] are zero (R34). -/
abbrev Cell := BitVec 64

/-- A 2-bit register or field (VAR, R30). -/
abbrev Code2 := BitVec 2

end Sys2Proof
end

