-- ==== Sys2Proof/Machine/Bytes.lean ====
section
/-! DEFINITION. Big-endian byte order, decided here once for message words, the length field, the digest and the command
word (spec/00_scope.md R15, spec/20_memory.md R60 to R63, spec/30_encoding.md R80). -/

namespace Sys2Proof.Machine

/-- be_bytes(n, v): the n-byte big-endian encoding of v, most significant byte first (R15). -/
def beBytes : Nat → Nat → List Byte
  | 0, _ => []
  | n + 1, v => BitVec.ofNat 8 (v >>> (8 * n)) :: beBytes n v

/-- be_word(s): the value of a byte sequence read most significant byte first (R15). -/
def beWord (s : List Byte) : Nat :=
  s.foldl (fun acc b => acc * 256 + b.toNat) 0

/-- zeros(k): k bytes of 0x00 (R15). -/
def zeroBytes (k : Nat) : List Byte :=
  List.replicate k 0x00#8

end Sys2Proof.Machine
end

