-- ==== Sys2Proof/Config.lean ====
section
/-! DEFINITION. What is fixed for the hardware and is no state: the names of the four variants, the two word widths, the
identity string and the largest byte count of one INPUT (spec/00_scope.md R2, R3, R9, R12). The per-variant parameters and
constant tables are in Machine/VariantConfig.lean. The spec leaves no value of any command open, so there is no free value. -/

namespace Sys2Proof

/-- The four variants of the engine (R2); register VAR holds one of them (R30). -/
inductive Variant where
  | sha224
  | sha256
  | sha384
  | sha512
deriving DecidableEq, Repr

/-- The two word widths (R9): 32 bits for SHA-224 and SHA-256, 64 bits for SHA-384 and SHA-512. -/
inductive Width where
  | w32
  | w64
deriving DecidableEq, Repr

/-- The word width w in bits (R9). -/
def Width.bits : Width → Nat
  | .w32 => 32
  | .w64 => 64

/-- NMAX, the largest byte count one INPUT command carries (R12, R83). -/
def Config.nmax : Nat := 2 ^ 28 - 1

/-- The engine's one identity string, letter for letter (R3). No command reads it. Its two curly brackets, code points 123 and
125, are put in by number. -/
def Config.identity : String :=
  "SHA2-ENGINE/nlanson-btc-hashes/" ++ String.singleton (Char.ofNat 123) ++ "SHA-224,SHA-256,SHA-384,SHA-512" ++
    String.singleton (Char.ofNat 125)

end Sys2Proof
end

