-- ==== Sys2Proof/Machine/Combinators.lean ====
section
/-! DEFINITION. The word operators and the combinators of the schedule and the round: SHR, ROTR (spec/00_scope.md R14), sigma0
and sigma1 (spec/42_scheduler.md R151 to R155), Sigma0 and Sigma1, Ch and Maj (spec/43_compression.md R170 to R175). The spec
marks the rotate and shift amounts as taken from FIPS 180-4 (log entry 10). -/

namespace Sys2Proof.Machine

/-- SHR(n, x), the logical right shift (R14). -/
def shr {w : Nat} (n : Nat) (x : BitVec w) : BitVec w := x >>> n

/-- ROTR(n, x), the right rotation, for 0 < n < w (R14). -/
def rotr {w : Nat} (n : Nat) (x : BitVec w) : BitVec w := shr n x ||| (x <<< (w - n))

/-- sigma0_32 (R151). -/
def smallSigma0w32 (x : BitVec 32) : BitVec 32 := rotr 7 x ^^^ rotr 18 x ^^^ shr 3 x

/-- sigma1_32 (R152). -/
def smallSigma1w32 (x : BitVec 32) : BitVec 32 := rotr 17 x ^^^ rotr 19 x ^^^ shr 10 x

/-- sigma0_64 (R153). -/
def smallSigma0w64 (x : BitVec 64) : BitVec 64 := rotr 1 x ^^^ rotr 8 x ^^^ shr 7 x

/-- sigma1_64 (R154). -/
def smallSigma1w64 (x : BitVec 64) : BitVec 64 := rotr 19 x ^^^ rotr 61 x ^^^ shr 6 x

/-- Sigma0_32 (R170). -/
def bigSigma0w32 (x : BitVec 32) : BitVec 32 := rotr 2 x ^^^ rotr 13 x ^^^ rotr 22 x

/-- Sigma1_32 (R171). -/
def bigSigma1w32 (x : BitVec 32) : BitVec 32 := rotr 6 x ^^^ rotr 11 x ^^^ rotr 25 x

/-- Sigma0_64 (R172). -/
def bigSigma0w64 (x : BitVec 64) : BitVec 64 := rotr 28 x ^^^ rotr 34 x ^^^ rotr 39 x

/-- Sigma1_64 (R173). -/
def bigSigma1w64 (x : BitVec 64) : BitVec 64 := rotr 14 x ^^^ rotr 18 x ^^^ rotr 41 x

/-- sigma0 of a width (R155). -/
def smallSigma0 : (ww : Width) → BitVec ww.bits → BitVec ww.bits
  | .w32, x => smallSigma0w32 x
  | .w64, x => smallSigma0w64 x

/-- sigma1 of a width (R155). -/
def smallSigma1 : (ww : Width) → BitVec ww.bits → BitVec ww.bits
  | .w32, x => smallSigma1w32 x
  | .w64, x => smallSigma1w64 x

/-- Sigma0 of a width (R174). -/
def bigSigma0 : (ww : Width) → BitVec ww.bits → BitVec ww.bits
  | .w32, x => bigSigma0w32 x
  | .w64, x => bigSigma0w64 x

/-- Sigma1 of a width (R174). -/
def bigSigma1 : (ww : Width) → BitVec ww.bits → BitVec ww.bits
  | .w32, x => bigSigma1w32 x
  | .w64, x => bigSigma1w64 x

/-- Ch(x, y, z): each bit is y's where x is 1 and z's where x is 0 (R175). -/
def ch {w : Nat} (x y z : BitVec w) : BitVec w := (x &&& y) ^^^ (~~~x &&& z)

/-- Maj(x, y, z): each bit is the majority of the three (R175). -/
def maj {w : Nat} (x y z : BitVec w) : BitVec w := (x &&& y) ^^^ (x &&& z) ^^^ (y &&& z)

end Sys2Proof.Machine
end

