-- ==== Sys2Proof/Machine/Scheduler.lean ====
section
/-! DEFINITION. The message scheduler (spec/42_scheduler.md R150, R156, R157): a block of B bytes becomes 16 big-endian words,
and these become the R schedule words. A pure function of one block. -/

namespace Sys2Proof.Machine

/-- Word j of a block: be_word(blk[j*wb .. (j+1)*wb)) (R60, R150). -/
def blockWord (ww : Width) (blk : List Byte) (j : Nat) : BitVec ww.bits :=
  BitVec.ofNat ww.bits (beWord ((blk.drop (j * ww.bytes)).take ww.bytes))

/-- ParseBlock(v, blk): the 16 words M[0..15] (R150). -/
def parseBlock (ww : Width) (blk : List Byte) : List (BitVec ww.bits) :=
  (List.range 16).map (blockWord ww blk)

/-- W[t] from the words before it, given newest first: newest[1] is W[t-2], newest[6] is W[t-7], newest[14] is W[t-15] and
newest[15] is W[t-16] (R156). -/
def nextScheduleWord (ww : Width) (newest : List (BitVec ww.bits)) : BitVec ww.bits :=
  smallSigma1 ww (newest.getD 1 0) + newest.getD 6 0 + smallSigma0 ww (newest.getD 14 0) + newest.getD 15 0

/-- Put k more schedule words in front of the words so far, newest first (R156). -/
def extendSchedule (ww : Width) : Nat → List (BitVec ww.bits) → List (BitVec ww.bits)
  | 0, newest => newest
  | k + 1, newest => extendSchedule ww k (nextScheduleWord ww newest :: newest)

/-- Schedule(v, blk): W[0 .. R-1] (R156). -/
def schedule (ww : Width) (blk : List Byte) : List (BitVec ww.bits) :=
  (extendSchedule ww (ww.rounds - 16) (parseBlock ww blk).reverse).reverse

end Sys2Proof.Machine
end

