-- ==== Sys2Proof/Machine/Compression.lean ====
section
/-! DEFINITION. The compression round and the compression function (spec/43_compression.md R176 to R179). Every addition wraps
modulo 2^w (spec/00_scope.md R14). -/

namespace Sys2Proof.Machine

/-- The working variables a .. h of one compression (spec/10_state.md R41). -/
structure Work (w : Nat) where
  a : BitVec w
  b : BitVec w
  c : BitVec w
  d : BitVec w
  e : BitVec w
  f : BitVec w
  g : BitVec w
  h : BitVec w
deriving DecidableEq, Repr

/-- T1 of a round with schedule word wt and round constant kt (R176). -/
def temp1 (ww : Width) (x : Work ww.bits) (wt kt : BitVec ww.bits) : BitVec ww.bits :=
  x.h + bigSigma1 ww x.e + ch x.e x.f x.g + kt + wt

/-- T2 of a round (R176). -/
def temp2 (ww : Width) (x : Work ww.bits) : BitVec ww.bits :=
  bigSigma0 ww x.a + maj x.a x.b x.c

/-- Round(t): only a and e are new, the other six shift; every right-hand side reads the values from before the round (R176). -/
def round (ww : Width) (x : Work ww.bits) (wt kt : BitVec ww.bits) : Work ww.bits where
  a := temp1 ww x wt kt + temp2 ww x
  b := x.a
  c := x.b
  d := x.c
  e := x.d + temp1 ww x wt kt
  f := x.e
  g := x.f
  h := x.g

/-- Rounds in increasing t, one per pair (W[t], K[t]) (R177). -/
def runRounds (ww : Width) : List (BitVec ww.bits × BitVec ww.bits) → Work ww.bits → Work ww.bits
  | [], x => x
  | (wt, kt) :: later, x => runRounds ww later (round ww x wt kt)

/-- The working variables start as a copy of H, a from H[0] through h from H[7] (R177). -/
def loadWork {w : Nat} (hs : Vector (BitVec w) 8) : Work w where
  a := hs[0]
  b := hs[1]
  c := hs[2]
  d := hs[3]
  e := hs[4]
  f := hs[5]
  g := hs[6]
  h := hs[7]

/-- Add the final working variables back into the state words, a to H[0] through h to H[7] (R177, R178). -/
def feedForward {w : Nat} (hs : Vector (BitVec w) 8) (x : Work w) : Vector (BitVec w) 8 :=
  #v[hs[0] + x.a, hs[1] + x.b, hs[2] + x.c, hs[3] + x.d, hs[4] + x.e, hs[5] + x.f, hs[6] + x.g, hs[7] + x.h]

/-- Compress(v, H, blk) (R177). It depends on the variant through its word width alone (R191). -/
def compress (ww : Width) (hs : Vector (BitVec ww.bits) 8) (blk : List Byte) : Vector (BitVec ww.bits) 8 :=
  feedForward hs (runRounds ww ((schedule ww blk).zip (kWords ww)) (loadWork hs))

/-- The same change of width for each of the eight words of H. -/
def resizeWords {w : Nat} (w' : Nat) (hs : Vector (BitVec w) 8) : Vector (BitVec w') 8 :=
  #v[hs[0].setWidth w', hs[1].setWidth w', hs[2].setWidth w', hs[3].setWidth w',
     hs[4].setWidth w', hs[5].setWidth w', hs[6].setWidth w', hs[7].setWidth w']

/-- Read H: the low w bits of each cell (spec/10_state.md R34). -/
def wordsOfCells (ww : Width) (cells : Vector Cell 8) : Vector (BitVec ww.bits) 8 :=
  resizeWords ww.bits cells

/-- Write H: each word into its cell, the bits above w zero (R34). -/
def cellsOfWords (ww : Width) (hs : Vector (BitVec ww.bits) 8) : Vector Cell 8 :=
  resizeWords 64 hs

/-- Compress on the cells of H: all eight words are replaced at once (spec/40_accumulator.md R102). -/
def compressCells (v : Variant) (cells : Vector Cell 8) (blk : List Byte) : Vector Cell 8 :=
  cellsOfWords v.width (compress v.width (wordsOfCells v.width cells) blk)

/-- The cells INIT writes: H[i] <- IV_v[i] (spec/44_variant_config.md R193). -/
def ivCells (v : Variant) : Vector Cell 8 :=
  cellsOfWords v.width (ivWords v)

end Sys2Proof.Machine
end

