-- ==== Sys2Proof/Machine/Formatter.lean ====
section
/-! DEFINITION. The digest formatter (spec/45_digest.md R210, R211), a pure function used by HASH. -/

namespace Sys2Proof.Machine

/-- Format(v, H): be_bytes(wb, H[0]) through be_bytes(wb, H[7]), cut to the first d bytes (R62, R210). -/
def formatDigest (v : Variant) (cells : Vector Cell 8) : List Byte :=
  ((wordsOfCells v.width cells).toList.flatMap (fun x => beBytes v.width.bytes x.toNat)).take v.digestBytes

end Sys2Proof.Machine
end

