-- ==== Sys2Proof/Machine/State.lean ====
section
/-! DEFINITION. The state of one engine instance (spec/10_state.md R30 to R37) and the two ends of its host interface
(spec/30_encoding.md R80, R88). The schedule and the working variables are transient and not here (R40 to R42); there is no
program counter, flag, mode or address register (R33, R43 to R45). -/

namespace Sys2Proof.Machine

/-- STATUS, the 2-bit lifecycle register (R31). -/
inductive Lifecycle where
  /-- 0: no INIT has run since reset. -/
  | uninit
  /-- 1: created with a variant; INPUT and HASH are accepted. -/
  | active
  /-- 2: HASH has completed; the instance is consumed. -/
  | finalized
  /-- 3: an error occurred; only INIT is accepted. -/
  | faulted
deriving DecidableEq, Repr

/-- One response: the status byte (R88) and, after a successful HASH, the digest bytes (R89). -/
structure Response where
  code : Byte
  digest : List Byte
deriving DecidableEq, Repr

/-- The state of one engine instance. -/
structure State where
  /-- VAR, 2 bits (R30). -/
  var : Variant
  /-- STATUS, 2 bits (R31). -/
  status : Lifecycle
  /-- ERR, 8 bits: the code of the error that faulted the instance (R32). -/
  err : BitVec 8
  /-- H[0..7], w bits each, in 64-bit cells (R34; log entry 2). -/
  h : Vector Cell 8
  /-- BUF: the B bytes in use are BUF[0 .. B-1] (R35; log entry 3). -/
  buf : Vector Byte 128
  /-- BUFLEN, 8 bits (R36). -/
  bufLen : BitVec 8
  /-- LEN, Lw bits, in a 128-bit cell (R37; log entry 4). -/
  len : BitVec 128
  /-- MODEL'S OWN: the bytes the host has sent and the engine has not consumed (R80; log entry 1). -/
  stream : List Byte
  /-- MODEL'S OWN: the responses sent to the host, oldest first (R88; log entry 1). -/
  sent : List Response
deriving DecidableEq, Repr

/-- Why a step stops. These are the spec's STUCK situations and not its errors: "A model has no transition for the engine in
that situation; it is stuck, not faulted" (spec/70_reset_and_hazards.md R258). STATUS, ERR and every other register keep their
values, no response is sent, and the engine goes on once the host has sent the rest (State.receive). The engine's own errors
(R220) are next states. Log entry 6. -/
inductive Fault where
  /-- Raised by Step, never by a command's meaning: the stream holds fewer than 4 bytes. Safe: the run stops where the engine waits. -/
  | awaitingWord
  /-- Raised by Step, never by a command's meaning: an INPUT word and fewer than N payload bytes. Safe, likewise. -/
  | awaitingPayload
deriving DecidableEq, Repr

/-- Why an instruction has no meaning. -/
inductive Refusal where
  /-- Raised by an arm of exec that has no meaning yet. No arm is such. Safe: nothing can be proved of a refused step. -/
  | notModelled (mnemonic : String)
deriving DecidableEq, Repr

/-- The instance right after hardware reset (spec/70_reset_and_hazards.md R250): STATUS = UNINIT and ERR = 0x00 are the spec's.
DESIGN CHOICE (log entry 5, unsafe): VAR, H, BUF, BUFLEN and LEN, which R250 leaves unspecified, are SHA-224 and zeros.
Nothing has been sent either way (R253). -/
def State.reset : State where
  var := .sha224
  status := .uninit
  err := 0x00#8
  h := Vector.replicate 8 0#64
  buf := Vector.replicate 128 0#8
  bufLen := 0#8
  len := 0#128
  stream := []
  sent := []

end Sys2Proof.Machine
end

