-- ==== Sys2Proof/Machine/Flags.lean ====
section
/-! DEFINITION. STATUS and ERR, the only flags the engine has (spec/10_state.md R45): the errors and their codes, the two
conditions a command tests, and what an error does to ERR (spec/60_exceptions.md R220 to R225). No addition records a carry or
an overflow (R45). -/

namespace Sys2Proof.Machine

/-- The three errors of the engine (R220). -/
inductive EngineError where
  | lengthOverflow
  | invalidEngineState
  | illegalCommand
deriving DecidableEq, Repr

/-- The status code of an error (spec/30_encoding.md R88). -/
def EngineError.code : EngineError → Byte
  | .lengthOverflow => 0x01#8
  | .invalidEngineState => 0x02#8
  | .illegalCommand => 0x03#8

/-- The status code of success (R88). -/
def okCode : Byte := 0x00#8

/-- The 2-bit encoding of STATUS (R31). -/
def Lifecycle.code : Lifecycle → Code2
  | .uninit => 0#2
  | .active => 1#2
  | .finalized => 2#2
  | .faulted => 3#2

/-- The lifecycle gate: INPUT and HASH execute only when STATUS = ACTIVE (spec/40_accumulator.md R103). -/
def gateOpen (s : State) : Bool := decide (s.status = .active)

/-- LengthOverflow's condition, compared as exact integers: LEN + 8*N > LMAX (spec/40_accumulator.md R105, R221). -/
def lengthOverflows (n : Nat) (s : State) : Bool := decide (s.var.lmax < s.len.toNat + 8 * n)

/-- ERR after an error: its code, unless the instance was already FAULTED (R224). -/
def errAfter (e : EngineError) (s : State) : BitVec 8 :=
  if s.status = .faulted then s.err else e.code

end Sys2Proof.Machine
end

