-- ==== Sys2Proof/Machine/Ops.lean ====
section
/-! DEFINITION. The operations every command shares: sending a response (spec/00_scope.md R17), the fault entry
(spec/60_exceptions.md R224), absorbing bytes (spec/40_accumulator.md R101), and the host's side of the stream
(spec/60_exceptions.md R234). There is no return from an error (R226): INIT is the only way out. -/

namespace Sys2Proof.Machine

/-- respond(st, bytes): send the host one response (R17, R88). -/
def respond (code : Byte) (digest : List Byte) (s : State) : State :=
  { s with sent := s.sent ++ [{ code := code, digest := digest }] }

/-- raise E: the fault entry. ERR takes the code unless the instance was already FAULTED, STATUS becomes FAULTED, the response
is the code alone, and no other register is written (R224). -/
def raiseError (e : EngineError) (s : State) : State :=
  respond e.code [] { s with err := errAfter e s, status := .faulted }

/-- BUF[BUFLEN] <- x; BUFLEN <- BUFLEN + 1 (R101). -/
def pushByte (x : Byte) (s : State) : State :=
  { s with buf := s.buf.setIfInBounds s.bufLen.toNat x, bufLen := s.bufLen + 1#8 }

/-- BUF[0 .. B-1], the block a compression reads (R101, R102). -/
def bufBlock (s : State) : List Byte :=
  s.buf.toList.take s.var.blockBytes

/-- When the buffer holds a full block, compress it into H and empty the buffer (R101). -/
def compressIfFull (s : State) : State :=
  if s.bufLen.toNat = s.var.blockBytes then
    { s with h := compressCells s.var s.h (bufBlock s), bufLen := 0#8 }
  else s

/-- absorb(x) (R101). -/
def absorb (x : Byte) (s : State) : State :=
  compressIfFull (pushByte x s)

/-- for i in 0 .. len(xs)-1: absorb(xs[i]) (R105, R106). -/
def absorbAll : List Byte → State → State
  | [], s => s
  | x :: xs, s => absorbAll xs (absorb x s)

/-- LEN <- LEN + 8*n (R105). It does not wrap where the command has checked the length first (R39). -/
def countBytes (n : Nat) (s : State) : State :=
  { s with len := BitVec.ofNat 128 (s.len.toNat + 8 * n) }

/-- The host sends more bytes (spec/30_encoding.md R80, spec/60_exceptions.md R234). -/
def State.receive (bytes : List Byte) (s : State) : State :=
  { s with stream := s.stream ++ bytes }

/-- The bytes of a response on the wire: the status byte, then the digest bytes (R88, R89). -/
def Response.bytes (r : Response) : List Byte := r.code :: r.digest

/-- The observation of a run: the response bytes so far (spec/70_reset_and_hazards.md R261). -/
def State.observed (s : State) : List Byte := s.sent.flatMap Response.bytes

end Sys2Proof.Machine
end

