-- ==== Sys2Proof/Machine/Padding.lean ====
section
/-! DEFINITION. The padding encoder (spec/41_padding.md R130 to R135), a pure function used by HASH. -/

namespace Sys2Proof.Machine

/-- k, the fewest zero bytes that make partial block, marker, zeros and length field a whole number of blocks (R130). -/
def padZeros (v : Variant) (r : Nat) : Nat :=
  (v.blockBytes - (r + 1 + v.lenBytes) % v.blockBytes) % v.blockBytes

/-- Pad(v, r, L): the marker 0x80, k zero bytes, and L as a big-endian field of Lb bytes (R130, R132, R134). -/
def pad (v : Variant) (r L : Nat) : List Byte :=
  0x80#8 :: (zeroBytes (padZeros v r) ++ beBytes v.lenBytes L)

end Sys2Proof.Machine
end

