-- ==== Sys2Proof/Machine/Accumulator.lean ====
section
/-! DEFINITION. The meanings of the three commands (spec/40_accumulator.md R104 to R106). Each answers a next state in every
state: an error of the engine is a next state too (spec/60_exceptions.md R224). -/

namespace Sys2Proof.Machine

/-- INIT: a fresh instance for variant v, in every STATUS; BUF is not written (R104). -/
def execInit (v : Variant) (s : State) : Host.Outcome State Fault Refusal :=
  .next (respond okCode []
    { s with var := v, h := ivCells v, bufLen := 0#8, len := 0#128, err := 0x00#8, status := .active })

/-- INPUT: the lifecycle check, then the length check, then LEN, then the payload (R105, R225). -/
def execInput (payload : List Byte) (s : State) : Host.Outcome State Fault Refusal :=
  if gateOpen s = false then .next (raiseError .invalidEngineState s)
  else if lengthOverflows payload.length s = true then .next (raiseError .lengthOverflow s)
  else .next (respond okCode [] (absorbAll payload (countBytes payload.length s)))

/-- The engine after HASH has absorbed the tail Pad(VAR, BUFLEN, LEN); LEN is not changed (R106). -/
def absorbTail (s : State) : State :=
  absorbAll (pad s.var s.bufLen.toNat s.len.toNat) s

/-- HASH: the lifecycle check, the tail, the digest, STATUS <- FINALIZED (R106). -/
def execHash (s : State) : Host.Outcome State Fault Refusal :=
  if gateOpen s = false then .next (raiseError .invalidEngineState s)
  else .next (respond okCode (formatDigest (absorbTail s).var (absorbTail s).h)
    { absorbTail s with status := .finalized })

/-- Executing an ILLEGAL word raises IllegalCommand, in any STATUS (spec/60_exceptions.md R223). -/
def execIllegal (s : State) : State := raiseError .illegalCommand s

end Sys2Proof.Machine
end

