-- ==== Sys2Proof/Syntax.lean ====
section
/-! DEFINITION. The commands, one constructor per row of spec/opcode_table.json (spec/30_encoding.md R82 to R84). An ILLEGAL
word (R87) is no row of the table and no constructor: the decoder answers it by name and the step executes it. -/

namespace Sys2Proof

/-- A command with its operands (R85). -/
inductive Instr where
  /-- INIT: the variant operand (R82, R104). -/
  | init (v : Variant)
  /-- INPUT: the payload P[0 .. N-1] in stream order; the operand N is its length (R83, R105). -/
  | input (payload : List Byte)
  /-- HASH: no operand (R84, R106). -/
  | hash
deriving DecidableEq, Repr

end Sys2Proof
end

