-- ==== Sys2Proof/Machine/Dispatch.lean ====
section
/-! DEFINITION. One arm per command of spec/opcode_table.json (spec/40_accumulator.md R100). -/

namespace Sys2Proof.Machine

/-- Execute a decoded command (R100). -/
def exec (i : Instr) (s : State) : Host.Outcome State Fault Refusal :=
  match i with
  | .init v => Sys2Proof.Machine.execInit v s
  | .input payload => Sys2Proof.Machine.execInput payload s
  | .hash => Sys2Proof.Machine.execHash s

end Sys2Proof.Machine
end

