-- ==== Sys2Proof/Machine/Operands.lean ====
section
/-! DEFINITION. The fields of a command word and the operands they give (spec/30_encoding.md R81 to R85). Operands are plain
unsigned fields: nothing is sign-extended, scaled or shifted (R85). INIT's operand is VAR, INPUT's are N and the N payload
bytes that follow the word, HASH has none. -/

namespace Sys2Proof

/-- The 2-bit encoding of a variant in VAR and in INIT's operand (spec/10_state.md R30, R82). -/
def Variant.code : Variant → Code2
  | .sha224 => 0#2
  | .sha256 => 1#2
  | .sha384 => 2#2
  | .sha512 => 3#2

/-- The variant a 2-bit code names; all four codes are legal (R30). -/
def Variant.ofCode (c : Code2) : Variant :=
  if c = 0#2 then .sha224
  else if c = 1#2 then .sha256
  else if c = 2#2 then .sha384
  else .sha512

namespace Machine

/-- OP = word[31:28] (R81). -/
def opField (w : CommandWord) : BitVec 4 := w.extractLsb' 28 4

/-- ARG = word[27:0] (R81): INPUT's byte count N (R83), HASH's reserved field (R84). -/
def argField (w : CommandWord) : BitVec 28 := w.extractLsb' 0 28

/-- INIT's reserved field, word[27:2] (R82). -/
def initReservedField (w : CommandWord) : BitVec 26 := w.extractLsb' 2 26

/-- INIT's variant operand VAR = word[1:0] (R85). -/
def varField (w : CommandWord) : Code2 := w.extractLsb' 0 2

end Machine

end Sys2Proof
end

