-- ==== Sys2Proof/WellFormed.lean ====
section
/-! DEFINITION. Which commands have an encoding: an INPUT's byte count fits the 28-bit field N (spec/30_encoding.md R83,
spec/00_scope.md R12). INIT has four legal operands and HASH has none, so both are always well formed. -/

namespace Sys2Proof

/-- The command has an encoding. -/
def Instr.wellFormed : Instr → Bool
  | .init _ => true
  | .input payload => decide (payload.length ≤ Config.nmax)
  | .hash => true

end Sys2Proof
end

