-- ==== Sys2Proof/Decode.lean ====
section
/-! DEFINITION. From the host's byte stream to a command, and back (spec/30_encoding.md R80 to R90). Decoding a word is total
(R86); an illegal word is rejected by name (R87); a command whose bytes have not all arrived is named too (R258). The encoder
is written from the same tables. -/

namespace Sys2Proof

/-- Why a command word is illegal (R87). -/
inductive IllegalReason where
  /-- OP is 0x0 or 0x4 .. 0xF. -/
  | unknownOp
  /-- An INIT word with bits [27:2] not zero. -/
  | initReservedBits
  /-- A HASH word with bits [27:0] not zero. -/
  | hashReservedBits
deriving DecidableEq, Repr

/-- What a command word decodes to, before its payload (R86). -/
inductive WordForm where
  | init (v : Variant)
  | input (n : BitVec 28)
  | hash
  | illegal (why : IllegalReason)
deriving DecidableEq, Repr

/-- What stands at the head of a byte stream. -/
inductive Decoded where
  /-- A complete command, and the bytes after it. -/
  | command (i : Instr) (rest : List Byte)
  /-- An illegal word, 4 bytes long with no payload (R87), and the bytes after it. -/
  | illegal (why : IllegalReason) (rest : List Byte)
  /-- Fewer than 4 bytes of a command word (R258). -/
  | partialWord
  /-- An INPUT word and fewer than N payload bytes (R258). -/
  | partialPayload
deriving DecidableEq, Repr

/-- decode(word) (R86). -/
def decodeWord (w : CommandWord) : WordForm :=
  if Machine.opField w = 0x1#4 then
    if Machine.initReservedField w = 0#26 then .init (Variant.ofCode (Machine.varField w))
    else .illegal .initReservedBits
  else if Machine.opField w = 0x2#4 then .input (Machine.argField w)
  else if Machine.opField w = 0x3#4 then
    if Machine.argField w = 0#28 then .hash else .illegal .hashReservedBits
  else .illegal .unknownOp

/-- Add an INPUT's payload to its word: the N bytes that follow, in stream order (R83, R85). -/
def takePayload (n : Nat) (rest : List Byte) : Decoded :=
  if n ≤ rest.length then .command (.input (rest.take n)) (rest.drop n) else .partialPayload

/-- Decode the head of a byte stream: the word's 4 bytes come most significant first (R80). -/
def decodeStream : List Byte → Decoded
  | b0 :: b1 :: b2 :: b3 :: rest =>
    match decodeWord (BitVec.ofNat 32 (Machine.beWord [b0, b1, b2, b3])) with
    | .init v => .command (.init v) rest
    | .input n => takePayload n.toNat rest
    | .hash => .command .hash rest
    | .illegal why => .illegal why rest
  | _ => .partialWord

/-- The command word of a command, field by field (R82 to R84). -/
def encodeWord : Instr → CommandWord
  | .init v => 0x1#4 ++ 0#26 ++ v.code
  | .input payload => 0x2#4 ++ BitVec.ofNat 28 payload.length
  | .hash => 0x3#4 ++ 0#28

/-- The payload bytes that follow the command word (R80). -/
def encodePayload : Instr → List Byte
  | .init _ => []
  | .input payload => payload
  | .hash => []

/-- The bytes of a command: the word as be_bytes(4, word), then the payload (R80). -/
def encode (i : Instr) : List Byte :=
  Machine.beBytes 4 (encodeWord i).toNat ++ encodePayload i

/-- The payload length a word announces: N for an INPUT word, 0 for every other (R86). -/
def payloadLength (w : CommandWord) : Nat :=
  match decodeWord w with
  | .input n => n.toNat
  | _ => 0

/-- The stream bytes of the command whose bits are w, numbered as the opcode table numbers them: bits [31:0] are the command
word, and payload byte k is bits [39+8k : 32+8k]; bits at nbits and above are 0 (log entry 9). -/
def tableBytes (nbits w : Nat) : List Byte :=
  let bits := w % 2 ^ nbits
  let word : CommandWord := BitVec.ofNat 32 bits
  Machine.beBytes 4 word.toNat ++
    (List.range (payloadLength word)).map (fun k => BitVec.ofNat 8 (bits >>> (32 + 8 * k)))

/-- The command the decoder reads from an opcode-table word; none where the decoder refuses it. -/
def decodeTableWord (nbits w : Nat) : Option Instr :=
  match decodeStream (tableBytes nbits w) with
  | .command i _ => some i
  | .illegal _ _ => none
  | .partialWord => none
  | .partialPayload => none

end Sys2Proof
end

