-- ==== Sys2Proof/Machine/Fetch.lean ====
section
/-! DEFINITION. Taking the next command from the host's stream (spec/30_encoding.md R80, spec/40_accumulator.md R100). The
engine has no program counter (spec/10_state.md R44): the next command is the head of the stream, consumed once, in order
(spec/20_memory.md R74). -/

namespace Sys2Proof.Machine

/-- What stands at the head of the stream. -/
def fetch (s : State) : Decoded := decodeStream s.stream

/-- The stream after the command at its head has been consumed. -/
def consumeTo (rest : List Byte) (s : State) : State := { s with stream := rest }

/-- Put the bytes of an opcode-table word at the head of the stream (log entry 9). -/
def placeAtHead (bytes : List Byte) (s : State) : State := { s with stream := bytes ++ s.stream }

end Sys2Proof.Machine
end

