-- ==== Sys2Proof/Machine/Step.lean ====
section
/-! DEFINITION. The engine's one step (spec/40_accumulator.md R100): take the next complete command, decode it, execute it,
send one response. An incomplete command has no step: the engine is stuck until the rest arrives (R258). -/

namespace Sys2Proof.Machine

/-- step(state, cmd) (R100). The consumed bytes leave the stream before the command executes; no command reads the stream. -/
def step (s : State) : Host.Outcome State Fault Refusal :=
  match fetch s with
  | .command i rest => exec i (consumeTo rest s)
  | .illegal _ rest => .next (execIllegal (consumeTo rest s))
  | .partialWord => .fault .awaitingWord
  | .partialPayload => .fault .awaitingPayload

/-- s with an opcode-table word's command at the head of the stream, where step takes its next command (log entry 9). -/
def State.withFetchWord (s : State) (nbits w : Nat) : State :=
  placeAtHead (tableBytes nbits w) s

end Sys2Proof.Machine
end

