-- ==== Sys2Proof/Machine/Assembler.lean ====
section
/-! DEFINITION. The assembler lines of command streams and the pseudo-commands (spec/30_encoding.md R91, R92). Lines are data,
not text to be parsed (log entry 12). -/

namespace Sys2Proof.Machine

/-- One assembler line (R91), or a pseudo-command (R92). -/
inductive AsmLine where
  /-- INIT with one of the four variant names. -/
  | init (v : Variant)
  /-- INPUT "text": the bytes of an ASCII text. -/
  | inputText (text : String)
  /-- INPUT hex:xxxx..: the bytes given in hex, two digits per byte. -/
  | inputHex (digits : String)
  /-- INPUT zeros:N. -/
  | inputZeros (n : Nat)
  /-- HASH. -/
  | hash
  /-- .word 0xXXXXXXXX. -/
  | word (w : CommandWord)
  /-- DIGEST variant, data: INIT, then INPUT of the data, then HASH (R92). -/
  | digest (v : Variant) (data : List Byte)
deriving DecidableEq, Repr

/-- The bytes of an ASCII text; none where a character is not ASCII (R91). -/
def asciiBytes (text : String) : Option (List Byte) :=
  if text.toList.all (fun c => decide (c.toNat < 128)) then some (text.toList.map (fun c => BitVec.ofNat 8 c.toNat))
  else none

/-- The value of a hex digit; none for any other character. -/
def hexDigit (c : Char) : Option Nat :=
  if 48 ≤ c.toNat ∧ c.toNat ≤ 57 then some (c.toNat - 48)
  else if 97 ≤ c.toNat ∧ c.toNat ≤ 102 then some (c.toNat - 87)
  else if 65 ≤ c.toNat ∧ c.toNat ≤ 70 then some (c.toNat - 55)
  else none

/-- Bytes from hex digits, two per byte; none where the text is no such sequence (R91). -/
def hexBytes : List Char → Option (List Byte)
  | [] => some []
  | [_] => none
  | hi :: lo :: later =>
    match hexDigit hi, hexDigit lo, hexBytes later with
    | some x, some y, some bs => some (BitVec.ofNat 8 (16 * x + y) :: bs)
    | _, _, _ => none

/-- Cut data into consecutive pieces of at most n + 1 bytes, at least one piece; `fuel` bounds the number of cuts. DESIGN CHOICE
(log entry 17): R92 leaves open where to cut, and every piece but the last has exactly n + 1 bytes. -/
def pieces (n : Nat) : Nat → List Byte → List (List Byte)
  | 0, data => [data]
  | fuel + 1, data =>
    if data.length ≤ n + 1 then [data]
    else data.take (n + 1) :: pieces n fuel (data.drop (n + 1))

/-- INPUT of any data: consecutive INPUT commands of at most NMAX bytes each, in order (R92), cut as `pieces` cuts
(log entry 17). -/
def expandInput (data : List Byte) : List Instr :=
  (pieces (Config.nmax - 1) data.length data).map Instr.input

/-- DIGEST v, data (R92). -/
def expandDigest (v : Variant) (data : List Byte) : List Instr :=
  Instr.init v :: (expandInput data ++ [Instr.hash])

/-- The bytes of a sequence of commands (R80). -/
def encodeAll (is : List Instr) : List Byte := is.flatMap encode

/-- The bytes a line stands for; none where its text is not ASCII or its hex text is no byte sequence (R91, R92). -/
def assemble : AsmLine → Option (List Byte)
  | .init v => some (encode (.init v))
  | .inputText text => (asciiBytes text).map (fun bs => encodeAll (expandInput bs))
  | .inputHex digits => (hexBytes digits.toList).map (fun bs => encodeAll (expandInput bs))
  | .inputZeros n => some (encodeAll (expandInput (zeroBytes n)))
  | .hash => some (encode .hash)
  | .word w => some (beBytes 4 w.toNat)
  | .digest v data => some (encodeAll (expandDigest v data))

/-- The bytes of a whole assembler program: its lines in order. -/
def assembleAll : List AsmLine → Option (List Byte)
  | [] => some []
  | line :: later =>
    match assemble line, assembleAll later with
    | some bs, some bs' => some (bs ++ bs')
    | _, _ => none

end Sys2Proof.Machine
end

