-- ==== Sys2Proof/Machine/Instances.lean ====
section
/-! DEFINITION. Several engine instances side by side (spec/10_state.md R46, spec/20_memory.md R71, spec/60_exceptions.md
R231): each has its own complete State, they share only the constants, and a step of one touches no other. DESIGN CHOICE (log
entry 14): they stand in a list. -/

namespace Sys2Proof.Machine

/-- Step instance k; none where there is no such instance or it has no step now. -/
def stepInstance (k : Nat) (engines : List State) : Option (List State) :=
  match engines[k]? with
  | some s =>
    match step s with
    | .next t => some (engines.set k t)
    | .fault _ => none
    | .refused _ => none
  | none => none

end Sys2Proof.Machine
end

