-- ==== Sys2Proof/Safety.lean ====
section
/-! DEFINITION. The terms in which claims about the engine are stated: the invariant of spec/10_state.md section 4, the digest
of a message as spec/40_accumulator.md R111 defines it, and the parts of a state no response can depend on
(spec/70_reset_and_hazards.md R250, R251). -/

namespace Sys2Proof.Machine

/-- The registers fit their widths for the current variant: H words below 2^w (R34) and LEN at most LMAX (R37, R39). -/
abbrev State.WidthsOk (s : State) : Prop :=
  (∀ i : Fin 8, s.h[i].toNat < 2 ^ s.var.width.bits) ∧ s.len.toNat ≤ s.var.lmax

/-- ERR holds a legal code, 0x00 exactly while the instance is not FAULTED (R32). -/
abbrev State.ErrOk (s : State) : Prop :=
  (s.status ≠ .faulted → s.err = 0x00#8) ∧
  (s.status = .faulted → s.err = 0x01#8 ∨ s.err = 0x02#8 ∨ s.err = 0x03#8)

/-- While the instance is ACTIVE: LEN is a multiple of 8 and BUFLEN = (LEN / 8) mod B (R38). -/
abbrev State.BufferOk (s : State) : Prop :=
  s.status = .active → s.len.toNat % 8 = 0 ∧ s.bufLen.toNat = s.len.toNat / 8 % s.var.blockBytes

/-- The invariant between commands (R32, R34, R36 to R39). It says nothing of BUFLEN before the first INIT, where R250 leaves
it unspecified. -/
structure State.Inv (s : State) : Prop where
  widths : s.WidthsOk
  err : s.ErrOk
  buffer : s.BufferOk

/-- BUF[0 .. BUFLEN-1], the bytes received since the last completed block (R35). -/
def State.pending (s : State) : List Byte := s.buf.toList.take s.bufLen.toNat

/-- Compress the first k blocks of a byte sequence in order, from the given H (R101, R111). -/
def compressBlocks (v : Variant) : Nat → Vector Cell 8 → List Byte → Vector Cell 8
  | 0, cells, _ => cells
  | k + 1, cells, xs =>
    compressBlocks v k (compressCells v cells (xs.take v.blockBytes)) (xs.drop v.blockBytes)

/-- M ++ Pad(v, n mod B, 8*n), the padded message (R111). -/
def paddedMessage (v : Variant) (m : List Byte) : List Byte :=
  m ++ pad v (m.length % v.blockBytes) (8 * m.length)

/-- DIGEST(v, M) (R111). -/
def digestOf (v : Variant) (m : List Byte) : List Byte :=
  formatDigest v (compressBlocks v ((paddedMessage v m).length / v.blockBytes) (ivCells v) (paddedMessage v m))

/-- Execute decoded commands in order, stopping at the first fault or refusal (R70). -/
def runAll : List Instr → State → Host.Outcome State Fault Refusal
  | [], s => .next s
  | i :: later, s =>
    match exec i s with
    | .next t => runAll later t
    | .fault r => .fault r
    | .refused r => .refused r

/-- INIT v, then one INPUT per chunk, then HASH (R111). -/
def messageCommands (v : Variant) (chunks : List (List Byte)) : List Instr :=
  Instr.init v :: (chunks.map Instr.input ++ [Instr.hash])

/-- What the host sees of an outcome: the responses, or that the engine is stuck and why (R232, R261). -/
def observe : Host.Outcome State Fault Refusal → Host.Outcome (List Response) Fault Refusal
  | .next s => .next s.sent
  | .fault r => .fault r
  | .refused r => .refused r

/-- Two states no response can tell apart, now or later: the same stream, responses, STATUS and ERR, and, while ACTIVE, the
same variant, H, LEN, BUFLEN and pending bytes. Nothing else of the registers is ever read (R35, R251). -/
structure State.SameToHost (s t : State) : Prop where
  stream : s.stream = t.stream
  sent : s.sent = t.sent
  status : s.status = t.status
  err : s.err = t.err
  registers : s.status = .active →
    s.var = t.var ∧ s.h = t.h ∧ s.len = t.len ∧ s.bufLen = t.bufLen ∧ s.pending = t.pending

/-- The registers of the engine agree, and so does the stream; the responses may differ. BUF is compared up to BUFLEN (R108). -/
structure State.SameEngine (s t : State) : Prop where
  var : s.var = t.var
  status : s.status = t.status
  err : s.err = t.err
  h : s.h = t.h
  bufLen : s.bufLen = t.bufLen
  len : s.len = t.len
  pending : s.pending = t.pending
  stream : s.stream = t.stream

end Sys2Proof.Machine
end

