-- ==== Sys2Proof/Certificates/Slice0/Obligations.lean ====
section
/-! DEFINITION. Statements for the provers, from the numbered rules of spec/. Each docstring names the rule it formalises. -/

open Sys2Proof Sys2Proof.Machine

/-! ## Reset -/

/-- R250, R253: after reset STATUS = UNINIT and ERR = 0x00, and nothing has been sent either way. -/
def Obligations.ResetIsUninitWithoutError : Prop :=
  State.reset.status = .uninit ∧ State.reset.err = 0x00#8 ∧ State.reset.stream = [] ∧ State.reset.sent = []

/-- R251: the registers R250 leaves unspecified are never observable: two UNINIT states that agree on ERR, the stream and the
responses, and differ in VAR, H, BUF, BUFLEN and LEN in any way, show the host the same after every number of steps. So no
claim about responses rests on the values log entry 5 chose. (The spec marks R251 as derived from R250, R103, R104, R224.) -/
def Obligations.UnspecifiedResetValuesAreNeverObserved : Prop :=
  ∀ s t : State, s.status = .uninit → t.status = .uninit → s.err = t.err → s.stream = t.stream → s.sent = t.sent →
    ∀ k : Nat, observe (Host.Core.run core k s) = observe (Host.Core.run core k t)

/-- R35, R251: what the host cannot tell apart stays so: if two states differ only in registers no rule reads (all of them
outside ACTIVE, BUF at BUFLEN and above in ACTIVE), a step of one answers a next state exactly when a step of the other does,
and the next states differ only so. -/
def Obligations.UnreadRegistersStayUnread : Prop :=
  ∀ s t : State, s.SameToHost t →
    (∀ s', step s = .next s' → ∃ t', step t = .next t' ∧ s'.SameToHost t') ∧
    (∀ r, step s = .fault r → step t = .fault r)

/-! ## The command stream and its encoding -/

/-- R80, R82 to R85: decoding the encoding of a well-formed command gives it back with every operand, and leaves the bytes
after it. -/
def Obligations.DecodeOfEncodeGivesTheCommand : Prop :=
  ∀ (i : Instr) (rest : List Byte), i.wellFormed = true → decodeStream (encode i ++ rest) = .command i rest

/-- R80, R87, R90: a command is decoded from its own encoding and from nothing else. -/
def Obligations.OnlyItsEncodingDecodesToACommand : Prop :=
  ∀ (bytes rest : List Byte) (i : Instr), decodeStream bytes = .command i rest →
    i.wellFormed = true ∧ bytes = encode i ++ rest

/-- R82 to R84, R86, R87: every word is one of the three commands by the table's match and mask, with VAR = word[1:0] and N =
word[27:0], or it is illegal. -/
def Obligations.WordsDecodeByMatchAndMask : Prop :=
  ∀ w : CommandWord,
    ((∃ v, decodeWord w = .init v) ↔ w &&& 0xFFFFFFFC#32 = 0x10000000#32) ∧
    ((∃ n, decodeWord w = .input n) ↔ w &&& 0xF0000000#32 = 0x20000000#32) ∧
    (decodeWord w = .hash ↔ w &&& 0xFFFFFFFF#32 = 0x30000000#32) ∧
    (∀ v, decodeWord w = .init v → v.code.toNat = w.toNat % 4) ∧
    (∀ n, decodeWord w = .input n → n.toNat = w.toNat % 2 ^ 28)

/-- R87: a word is illegal exactly when OP is none of 1, 2, 3, or an INIT word has a nonzero bit in [27:2], or a HASH word
has a nonzero bit in [27:0]; the decoder names which. -/
def Obligations.IllegalWordsAreNamed : Prop :=
  ∀ w : CommandWord,
    (decodeWord w = .illegal .unknownOp ↔ w.toNat / 2 ^ 28 = 0 ∨ 4 ≤ w.toNat / 2 ^ 28) ∧
    (decodeWord w = .illegal .initReservedBits ↔ w.toNat / 2 ^ 28 = 1 ∧ w.toNat / 4 % 2 ^ 26 ≠ 0) ∧
    (decodeWord w = .illegal .hashReservedBits ↔ w.toNat / 2 ^ 28 = 3 ∧ w.toNat % 2 ^ 28 ≠ 0)

/-- R82 to R84: words written out from the encoding tables. -/
def Obligations.WrittenOutWordsDecode : Prop :=
  decodeWord 0b00010000000000000000000000000010#32 = .init .sha384 ∧
  decodeWord 0b00100000000000000000000001000000#32 = .input 64#28 ∧
  decodeWord 0b00110000000000000000000000000000#32 = .hash ∧
  decodeWord 0b00010000000000000000000000000100#32 = .illegal .initReservedBits ∧
  decodeWord 0b01000000000000000000000000000000#32 = .illegal .unknownOp

/-- Placing an opcode-table word at the head of the stream makes the next step run the decoded instruction, in any state (log
entry 9). -/
def Obligations.PlacedTableWordRuns : Prop :=
  ∀ (s : State) (nbits w : Nat) (i : Instr), decodeTableWord nbits w = some i → step (s.withFetchWord nbits w) = exec i s

/-- R91, R92: a pseudo-INPUT expands to INPUT commands whose payloads are the data in order, each of at most NMAX bytes, and
to a single one when the data fits; DIGEST is INIT, that expansion, HASH. -/
def Obligations.PseudoCommandsExpand : Prop :=
  (∀ data : List Byte, ∃ chunks : List (List Byte), expandInput data = chunks.map Instr.input ∧ chunks.flatten = data ∧
    (∀ c ∈ chunks, c.length ≤ 2 ^ 28 - 1) ∧ (data.length ≤ 2 ^ 28 - 1 → chunks = [data])) ∧
  (∀ (v : Variant) (data : List Byte), expandDigest v data = [Instr.init v] ++ expandInput data ++ [Instr.hash])

/-! ## The step -/

/-- R100: when a complete command is at the head of the stream, the step executes it, its bytes having left the stream. -/
def Obligations.StepExecutesTheDecodedCommand : Prop :=
  ∀ (s : State) (i : Instr) (rest : List Byte), decodeStream s.stream = .command i rest →
    step s = exec i { s with stream := rest }

/-- R223 (the spec's decision D15): an illegal word raises IllegalCommand in any STATUS, consumes its 4 bytes and no payload,
and records ERR <- 0x03 if the instance was not already FAULTED; no other register changes. -/
def Obligations.IllegalWordRaisesIllegalCommand : Prop :=
  ∀ (s : State) (w : CommandWord) (rest : List Byte) (why : IllegalReason), s.stream = beBytes 4 w.toNat ++ rest →
    decodeWord w = .illegal why →
    step s = .next { s with
      status := .faulted, err := (if s.status = .faulted then s.err else 0x03#8), stream := rest,
      sent := s.sent ++ [{ code := 0x03#8, digest := [] }] }

/-- R258 (the spec's decision D23; the names of the two stuck states are the model's, log entry 6): the engine has no
transition exactly when the stream holds fewer than 4 bytes, or an INPUT word and fewer than N payload bytes; and an engine
that waits executes the command, from unchanged registers, once the host has sent the rest. -/
def Obligations.IncompleteCommandWaitsForItsRest : Prop :=
  (∀ s : State, (∀ t, step s ≠ .next t) ↔
    s.stream.length < 4 ∨
    ∃ (w : CommandWord) (n : BitVec 28) (rest : List Byte), s.stream = beBytes 4 w.toNat ++ rest ∧
      decodeWord w = .input n ∧ rest.length < n.toNat) ∧
  (∀ (s : State) (i : Instr) (more : List Byte), i.wellFormed = true → more ≠ [] → encode i = s.stream ++ more →
    (∀ t, step s ≠ .next t) ∧ step (s.receive more) = exec i { s with stream := [] })

/-- No step is refused: every command of the table has its meaning. -/
def Obligations.NoStepIsRefused : Prop :=
  ∀ (s : State) (r : Refusal), step s ≠ .refused r

/-- R88, R89: each step sends exactly one response with one of the four codes; digest bytes come only with a successful HASH,
are then those R210 forms of the final H, and number exactly d, so a response is 1 + d bytes or 1 byte. -/
def Obligations.EachStepSendsExactlyOneResponse : Prop :=
  ∀ s t : State, step s = .next t → ∃ r : Response, t.sent = s.sent ++ [r] ∧
    (r.code = 0x00#8 ∨ r.code = 0x01#8 ∨ r.code = 0x02#8 ∨ r.code = 0x03#8) ∧
    ((r.code = 0x00#8 ∧ ∃ rest, decodeStream s.stream = .command .hash rest) →
      r.digest = formatDigest t.var t.h ∧ t.var = s.var ∧ r.bytes.length = 1 + s.var.digestBytes) ∧
    (¬ (r.code = 0x00#8 ∧ ∃ rest, decodeStream s.stream = .command .hash rest) → r.bytes = [r.code])

/-- R31: the moves of the lifecycle register: INIT makes it ACTIVE; a successful HASH, possible only from ACTIVE, makes it
FINALIZED; a successful INPUT leaves it ACTIVE; every other command makes it FAULTED. -/
def Obligations.LifecycleMoves : Prop :=
  ∀ s t : State, step s = .next t →
    (∃ v rest, decodeStream s.stream = .command (.init v) rest ∧ t.status = .active) ∨
    (∃ rest, decodeStream s.stream = .command .hash rest ∧ s.status = .active ∧ t.status = .finalized) ∨
    (∃ p rest, decodeStream s.stream = .command (.input p) rest ∧ s.status = .active ∧ t.status = .active) ∨
    ((∀ v rest, decodeStream s.stream ≠ .command (.init v) rest) ∧ t.status = .faulted)

/-- R30, R37: VAR is written only by INIT, and LEN only by INIT and INPUT. -/
def Obligations.OnlyInitWritesVarAndHashKeepsLen : Prop :=
  ∀ s t : State, step s = .next t → (∀ v rest, decodeStream s.stream ≠ .command (.init v) rest) →
    t.var = s.var ∧ ((∀ p rest, decodeStream s.stream ≠ .command (.input p) rest) → t.len = s.len)

/-- R226 (the spec's decisions D8, D28): a FAULTED instance stays FAULTED under every command except INIT; INPUT and HASH
report InvalidEngineState, illegal words report IllegalCommand, and nothing but the response changes. INIT starts a fresh
instance. -/
def Obligations.FaultedInstanceStaysFaulted : Prop :=
  ∀ s : State, s.status = .faulted →
    (∀ i rest, decodeStream s.stream = .command i rest → (∀ v, i ≠ .init v) →
      step s = .next { s with stream := rest, sent := s.sent ++ [{ code := 0x02#8, digest := [] }] }) ∧
    (∀ why rest, decodeStream s.stream = .illegal why rest →
      step s = .next { s with stream := rest, sent := s.sent ++ [{ code := 0x03#8, digest := [] }] }) ∧
    (∀ v rest, decodeStream s.stream = .command (.init v) rest → ∃ t, step s = .next t ∧
      t.status = .active ∧ t.err = 0x00#8 ∧ t.var = v ∧ t.h = ivCells v ∧ t.bufLen = 0#8 ∧ t.len = 0#128)

/-! ## The invariant -/

/-- The invariant holds at reset (of the data registers it says only that they fit their widths; log entry 5). -/
def Obligations.InvariantAtReset : Prop := State.reset.Inv

/-- R32, R34, R38, R39: every step keeps the invariant. -/
def Obligations.InvariantKeptByEveryStep : Prop :=
  ∀ s t : State, s.Inv → step s = .next t → t.Inv

/-! ## INIT -/

/-- R252, R104: INIT completes in every state; VAR = v, H = IV_v, BUFLEN = 0, LEN = 0, ERR = 0x00, STATUS = ACTIVE, response
[0x00]; BUF and the stream are unchanged. -/
def Obligations.InitCreatesAFreshInstance : Prop :=
  ∀ (v : Variant) (s : State), exec (.init v) s = .next { s with
    var := v, status := .active, err := 0x00#8, h := ivCells v, bufLen := 0#8, len := 0#128,
    sent := s.sent ++ [{ code := 0x00#8, digest := [] }] }

/-- R193 to R197 (the values are marked general knowledge in the spec; log entry 10): the words INIT writes into H. -/
def Obligations.InitWritesTheInitialHashValues : Prop :=
  ∀ s : State,
    (∃ t, exec (.init .sha224) s = .next t ∧ t.h.toList.map BitVec.toNat =
      [0xc1059ed8, 0x367cd507, 0x3070dd17, 0xf70e5939, 0xffc00b31, 0x68581511, 0x64f98fa7, 0xbefa4fa4]) ∧
    (∃ t, exec (.init .sha256) s = .next t ∧ t.h.toList.map BitVec.toNat =
      [0x6a09e667, 0xbb67ae85, 0x3c6ef372, 0xa54ff53a, 0x510e527f, 0x9b05688c, 0x1f83d9ab, 0x5be0cd19]) ∧
    (∃ t, exec (.init .sha384) s = .next t ∧ t.h.toList.map BitVec.toNat =
      [0xcbbb9d5dc1059ed8, 0x629a292a367cd507, 0x9159015a3070dd17, 0x152fecd8f70e5939,
       0x67332667ffc00b31, 0x8eb44a8768581511, 0xdb0c2e0d64f98fa7, 0x47b5481dbefa4fa4]) ∧
    (∃ t, exec (.init .sha512) s = .next t ∧ t.h.toList.map BitVec.toNat =
      [0x6a09e667f3bcc908, 0xbb67ae8584caa73b, 0x3c6ef372fe94f82b, 0xa54ff53a5f1d36f1,
       0x510e527fade682d1, 0x9b05688c2b3e6c1f, 0x1f83d9abfb41bd6b, 0x5be0cd19137e2179])

/-- R104: INIT discards all earlier state, including a fault: whatever two states held, after the same INIT the host can no
longer tell them apart, given the same stream and responses. -/
def Obligations.InitDiscardsAllEarlierState : Prop :=
  ∀ (v : Variant) (s t : State), s.stream = t.stream → s.sent = t.sent →
    ∃ s' t', exec (.init v) s = .next s' ∧ exec (.init v) t = .next t' ∧ s'.SameToHost t'

/-! ## INPUT -/

/-- R101, R105: in an ACTIVE state that meets the invariant, with LEN + 8*N at most LMAX, INPUT completes: LEN grows by 8*N,
the payload joins the pending bytes, every full block is compressed into H in order, the rest stays pending, and nothing else
changes but the response. -/
def Obligations.InputConsumesEveryFullBlock : Prop :=
  ∀ (s : State) (payload : List Byte), s.Inv → s.status = .active →
    s.len.toNat + 8 * payload.length ≤ s.var.lmax →
    ∃ t, exec (.input payload) s = .next t ∧
      t.len.toNat = s.len.toNat + 8 * payload.length ∧
      t.h = compressBlocks s.var ((s.bufLen.toNat + payload.length) / s.var.blockBytes) s.h (s.pending ++ payload) ∧
      t.bufLen.toNat = (s.bufLen.toNat + payload.length) % s.var.blockBytes ∧
      t.pending = (s.pending ++ payload).drop
        ((s.bufLen.toNat + payload.length) / s.var.blockBytes * s.var.blockBytes) ∧
      t.var = s.var ∧ t.status = .active ∧ t.err = s.err ∧ t.stream = s.stream ∧
      t.sent = s.sent ++ [{ code := 0x00#8, digest := [] }]

/-- R35, R101: the frame of INPUT on BUF. Payload byte j goes to BUF[(BUFLEN + j) mod B], where it stands unless a later one
has overwritten it; every byte of BUF to which no payload byte goes, those at B and above among them, is unchanged. -/
def Obligations.InputWritesOnlyTheBufferBytesItStores : Prop :=
  ∀ (s : State) (payload : List Byte), s.Inv → s.status = .active →
    s.len.toNat + 8 * payload.length ≤ s.var.lmax →
    ∃ t, exec (.input payload) s = .next t ∧
      (∀ j, j < payload.length → payload.length ≤ j + s.var.blockBytes →
        t.buf[(s.bufLen.toNat + j) % s.var.blockBytes]? = payload[j]?) ∧
      (∀ i, (∀ j, j < payload.length → (s.bufLen.toNat + j) % s.var.blockBytes ≠ i) → t.buf[i]? = s.buf[i]?)

/-- R107 (which the spec derives from R103 and R105): a zero-length INPUT in ACTIVE state responds OK and changes nothing
else; in any other state it raises InvalidEngineState. -/
def Obligations.ZeroLengthInputChangesNothing : Prop :=
  ∀ s : State, s.Inv →
    (s.status = .active → exec (.input []) s = .next { s with sent := s.sent ++ [{ code := 0x00#8, digest := [] }] }) ∧
    (s.status ≠ .active → exec (.input []) s = .next { s with
      status := .faulted, err := (if s.status = .faulted then s.err else 0x02#8),
      sent := s.sent ++ [{ code := 0x02#8, digest := [] }] })

/-- R221: in ACTIVE state an INPUT whose total would exceed 2^64 - 1 bits (SHA-224, SHA-256) or 2^128 - 1 bits (SHA-384,
SHA-512) raises LengthOverflow before any byte is absorbed: ERR <- 0x01, STATUS <- FAULTED, response [0x01], nothing else
written. HASH never answers that code. -/
def Obligations.OverlongInputRaisesLengthOverflow : Prop :=
  (∀ (s : State) (payload : List Byte), s.status = .active →
    s.len.toNat + 8 * payload.length >
      (match s.var with | .sha224 => 2 ^ 64 - 1 | .sha256 => 2 ^ 64 - 1 | .sha384 => 2 ^ 128 - 1 | .sha512 => 2 ^ 128 - 1) →
    exec (.input payload) s = .next { s with
      status := .faulted, err := 0x01#8, sent := s.sent ++ [{ code := 0x01#8, digest := [] }] }) ∧
  (∀ s t : State, exec .hash s = .next t → ∃ r, t.sent = s.sent ++ [r] ∧ r.code ≠ 0x01#8)

/-- R108 (the source's requirement; the spec derives its form from R101 and R105): streaming equivalence. From an ACTIVE
state INPUT P1; INPUT P2 ends in the same registers as INPUT P1 ++ P2 when the sum fits; when it does not, both end FAULTED
with ERR = 0x01. And any two chunkings of one message give the same response to HASH. -/
def Obligations.StreamingEquivalence : Prop :=
  (∀ (s : State) (p q : List Byte), s.status = .active → s.len.toNat + 8 * (p.length + q.length) ≤ s.var.lmax →
    ∃ t u w, exec (.input p) s = .next t ∧ exec (.input q) t = .next u ∧ exec (.input (p ++ q)) s = .next w ∧
      u.SameEngine w ∧ u.status = .active) ∧
  (∀ (s : State) (p q : List Byte), s.status = .active → s.var.lmax < s.len.toNat + 8 * (p.length + q.length) →
    ∃ t u w, exec (.input p) s = .next t ∧ exec (.input q) t = .next u ∧ exec (.input (p ++ q)) s = .next w ∧
      u.status = .faulted ∧ u.err = 0x01#8 ∧ w.status = .faulted ∧ w.err = 0x01#8) ∧
  (∀ (s : State) (v : Variant) (cs ds : List (List Byte)), cs.flatten = ds.flatten →
    ∃ t u, runAll (messageCommands v cs) s = .next t ∧ runAll (messageCommands v ds) s = .next u ∧
      t.sent.getLast? = u.sent.getLast?)

/-! ## HASH -/

/-- R106: in an ACTIVE state that meets the invariant HASH completes: the tail joins the pending bytes, its blocks are
compressed into H, the digest of the final H is sent after 0x00, STATUS is FINALIZED and BUFLEN is 0; VAR, ERR, LEN and the
stream are unchanged. -/
def Obligations.HashCompressesTheTailAndSendsTheDigest : Prop :=
  ∀ s : State, s.Inv → s.status = .active →
    ∃ t, exec .hash s = .next t ∧
      t.h = compressBlocks s.var
        ((s.bufLen.toNat + (pad s.var s.bufLen.toNat s.len.toNat).length) / s.var.blockBytes) s.h
        (s.pending ++ pad s.var s.bufLen.toNat s.len.toNat) ∧
      t.sent = s.sent ++ [{ code := 0x00#8, digest := formatDigest s.var t.h }] ∧
      t.status = .finalized ∧ t.bufLen = 0#8 ∧
      t.var = s.var ∧ t.err = s.err ∧ t.len = s.len ∧ t.stream = s.stream

/-- R35, R101, R106: the frame of HASH on BUF: tail byte j goes to BUF[(BUFLEN + j) mod B], where it stands unless a later
one has overwritten it; every other byte of BUF is unchanged. -/
def Obligations.HashWritesOnlyTheBufferBytesOfTheTail : Prop :=
  ∀ s : State, s.Inv → s.status = .active →
    ∃ t, exec .hash s = .next t ∧
      (∀ j, j < (pad s.var s.bufLen.toNat s.len.toNat).length →
        (pad s.var s.bufLen.toNat s.len.toNat).length ≤ j + s.var.blockBytes →
        t.buf[(s.bufLen.toNat + j) % s.var.blockBytes]? = (pad s.var s.bufLen.toNat s.len.toNat)[j]?) ∧
      (∀ i, (∀ j, j < (pad s.var s.bufLen.toNat s.len.toNat).length → (s.bufLen.toNat + j) % s.var.blockBytes ≠ i) →
        t.buf[i]? = s.buf[i]?)

/-- R68, R106, R222: a HASH consumes the instance: after a successful one, INPUT and HASH answer InvalidEngineState and no
digest. -/
def Obligations.SecondHashFails : Prop :=
  ∀ s : State, s.status = .active → ∃ t, exec .hash s = .next t ∧ t.status = .finalized ∧
    ∀ i : Instr, (∀ v, i ≠ .init v) → ∃ u, exec i t = .next u ∧
      u.status = .faulted ∧ u.err = 0x02#8 ∧ u.sent = t.sent ++ [{ code := 0x02#8, digest := [] }]

/-- R110 (which the spec derives from R101 and R131): HASH performs exactly one compression when BUFLEN + 1 + Lb <= B and
exactly two otherwise; the border is at 55 / 56 bytes for SHA-224 and SHA-256 and at 111 / 112 for SHA-384 and SHA-512. -/
def Obligations.HashCompressesOneOrTwoBlocks : Prop :=
  ∀ s : State, s.Inv → s.status = .active →
    ∃ t, exec .hash s = .next t ∧
      (s.bufLen.toNat ≤ (match s.var with | .sha224 => 55 | .sha256 => 55 | .sha384 => 111 | .sha512 => 111) →
        t.h = compressCells s.var s.h (s.pending ++ pad s.var s.bufLen.toNat s.len.toNat)) ∧
      ((match s.var with | .sha224 => 56 | .sha256 => 56 | .sha384 => 112 | .sha512 => 112) ≤ s.bufLen.toNat →
        t.h = compressCells s.var
          (compressCells s.var s.h ((s.pending ++ pad s.var s.bufLen.toNat s.len.toNat).take s.var.blockBytes))
          ((s.pending ++ pad s.var s.bufLen.toNat s.len.toNat).drop s.var.blockBytes))

/-- R112 (which the spec derives from R106 and R210): the digest of a successful HASH is 28, 32, 48 or 64 bytes by the
variant, whatever was hashed. -/
def Obligations.DigestLengthIsFixedByTheVariant : Prop :=
  ∀ s : State, s.status = .active → ∃ t d, exec .hash s = .next t ∧
    t.sent = s.sent ++ [{ code := 0x00#8, digest := d }] ∧
    d.length = (match s.var with | .sha224 => 28 | .sha256 => 32 | .sha384 => 48 | .sha512 => 64)

/-- R109 (which the spec derives from R104, R106 and R131): INIT v; HASH, from any state, returns the digest of the empty
message, which is one compression of the IV over Pad(v, 0, 0), exactly one block. -/
def Obligations.EmptyMessageIsOneBlock : Prop :=
  ∀ (v : Variant) (s : State), (pad v 0 0).length = v.blockBytes ∧
    ∃ t, runAll [.init v, .hash] s = .next t ∧ t.sent.getLast? =
      some { code := 0x00#8, digest := formatDigest v (compressCells v (ivCells v) (pad v 0 0)) }

/-- R111 (which the spec derives from R101, R104, R105, R106, R108 and R38): the function computed. Whatever state the engine
is in, the host that sends INIT v, INPUTs whose payloads concatenate to a message of at most LMAX bits, and HASH, gets OK for
each and the digest DIGEST(v, M); what it sent after them is still there. -/
def Obligations.EngineComputesTheDigestOfAnyChunking : Prop :=
  ∀ (s : State) (v : Variant) (chunks : List (List Byte)) (after : List Byte),
    8 * chunks.flatten.length ≤ v.lmax → (∀ c ∈ chunks, c.length ≤ 2 ^ 28 - 1) →
    s.stream = encodeAll (messageCommands v chunks) ++ after →
    ∃ t, Host.Core.run core (chunks.length + 2) s = .next t ∧ t.stream = after ∧ t.status = .finalized ∧
      t.sent = s.sent ++ List.replicate (chunks.length + 1) { code := 0x00#8, digest := [] } ++
        [{ code := 0x00#8, digest := digestOf v chunks.flatten }]

/-- R92, R111: the DIGEST pseudo-command on data of any length up to LMAX bits ends with the response that holds its
digest. -/
def Obligations.DigestPseudoCommandReturnsTheDigest : Prop :=
  ∀ (s : State) (v : Variant) (data : List Byte), 8 * data.length ≤ v.lmax →
    s.stream = encodeAll (expandDigest v data) →
    ∃ t, Host.Core.run core (expandDigest v data).length s = .next t ∧ t.stream = [] ∧
      t.sent.getLast? = some { code := 0x00#8, digest := digestOf v data }

/-! ## Errors -/

/-- R222, R103 (the spec's decisions D7, D8, D16): INPUT and HASH outside ACTIVE raise InvalidEngineState: ERR <- 0x02 unless
the instance was already FAULTED, STATUS <- FAULTED, response [0x02], and nothing else changes. -/
def Obligations.CommandsOutsideActiveRaiseInvalidEngineState : Prop :=
  ∀ s : State, s.status ≠ .active → ∀ i : Instr, (∀ v, i ≠ .init v) →
    exec i s = .next { s with
      status := .faulted, err := (if s.status = .faulted then s.err else 0x02#8),
      sent := s.sent ++ [{ code := 0x02#8, digest := [] }] }

/-- R224 (the spec's decision D8): the fault entry writes ERR unless already FAULTED, STATUS and the response, and no other
register; and an error is precise: whichever step answers an error code has had no effect but that and the consumed bytes. -/
def Obligations.FaultEntryWritesOnlyErrAndStatus : Prop :=
  (∀ (e : EngineError) (s : State), raiseError e s = { s with
    err := (if s.status ≠ .faulted then e.code else s.err), status := .faulted,
    sent := s.sent ++ [{ code := e.code, digest := [] }] }) ∧
  (∀ (s t : State) (r : Response), step s = .next t → t.sent = s.sent ++ [r] → r.code ≠ 0x00#8 →
    ∃ rest, ((∃ i, decodeStream s.stream = .command i rest) ∨ (∃ why, decodeStream s.stream = .illegal why rest)) ∧
      t = { s with
      err := (if s.status ≠ .faulted then r.code else s.err), status := .faulted, stream := rest,
      sent := s.sent ++ [{ code := r.code, digest := [] }] })

/-- R225 (the spec's decision D27): one error is reported, and IllegalCommand comes before InvalidEngineState, which comes
before LengthOverflow. -/
def Obligations.ErrorPrecedence : Prop :=
  (∀ (s : State) (why : IllegalReason) (rest : List Byte), decodeStream s.stream = .illegal why rest →
    ∃ t, step s = .next t ∧ t.sent = s.sent ++ [{ code := 0x03#8, digest := [] }]) ∧
  (∀ (s : State) (p : List Byte), s.status ≠ .active →
    ∃ t, exec (.input p) s = .next t ∧ t.sent = s.sent ++ [{ code := 0x02#8, digest := [] }]) ∧
  (∀ (s : State) (p : List Byte), s.status = .active → s.var.lmax < s.len.toNat + 8 * p.length →
    ∃ t, exec (.input p) s = .next t ∧ t.sent = s.sent ++ [{ code := 0x01#8, digest := [] }])

/-! ## Padding and digest -/

/-- R130, R132 (and R134, which the spec derives from R130): the tail is the marker 0x80, the fewest zero bytes that make the
total a whole number of blocks, and L as Lb big-endian bytes. -/
def Obligations.TailIsMarkerFewestZerosAndLength : Prop :=
  ∀ (v : Variant) (r L : Nat), r < v.blockBytes → L ≤ v.lmax →
    ∃ (k : Nat) (field : List Byte), pad v r L = [0x80#8] ++ List.replicate k 0x00#8 ++ field ∧
      (r + 1 + k + v.lenBytes) % v.blockBytes = 0 ∧
      (∀ j, j < k → (r + 1 + j + v.lenBytes) % v.blockBytes ≠ 0) ∧
      field.length = v.lenBytes ∧ beWord field = L

/-- R131, R133 (which the spec derives from R130): partial block and tail are one block when r + 1 + Lb <= B and two
otherwise, with k as the closed forms say; and absorbing the tail leaves BUFLEN = 0. -/
def Obligations.TailCompletesOneOrTwoBlocks : Prop :=
  (∀ (v : Variant) (r L : Nat), r < v.blockBytes →
    (r + 1 + v.lenBytes ≤ v.blockBytes → r + (pad v r L).length = v.blockBytes ∧
      padZeros v r = v.blockBytes - r - 1 - v.lenBytes) ∧
    (v.blockBytes < r + 1 + v.lenBytes → r + (pad v r L).length = 2 * v.blockBytes ∧
      padZeros v r = 2 * v.blockBytes - r - 1 - v.lenBytes)) ∧
  (∀ s : State, s.bufLen.toNat < s.var.blockBytes →
    (absorbAll (pad s.var s.bufLen.toNat s.len.toNat) s).bufLen = 0#8)

/-- R210, R62: the digest is the first nd words of H, each most significant byte first, H[0] first; the words beyond are
dropped. -/
def Obligations.DigestIsTheLeadingWordsBigEndian : Prop :=
  ∀ (v : Variant) (cells : Vector Cell 8),
    (formatDigest v cells).length = v.digestBytes ∧ v.digestBytes = v.digestWords * v.width.bytes ∧
    ∀ (i : Fin 8) (j : Nat), i.val < v.digestWords → j < v.width.bytes →
      (formatDigest v cells)[i.val * v.width.bytes + j]? =
        some (BitVec.ofNat 8 (cells[i].toNat / 2 ^ (8 * (v.width.bytes - 1 - j))))

/-- R15: be_bytes and be_word are inverse, and byte i of be_bytes(n, v) is v[8(n-1-i)+7 : 8(n-1-i)]. -/
def Obligations.BigEndianBytesAndWordsAreInverse : Prop :=
  (∀ n v : Nat, v < 2 ^ (8 * n) → (beBytes n v).length = n ∧ beWord (beBytes n v) = v ∧
    ∀ i, i < n → (beBytes n v)[i]? = some (BitVec.ofNat 8 (v / 2 ^ (8 * (n - 1 - i))))) ∧
  (∀ s : List Byte, beBytes s.length (beWord s) = s)

/-! ## The scheduler and the compression round -/

/-- R14: SHR and ROTR as integer formulas, at any width. -/
def Obligations.ShiftAndRotateFormulas : Prop :=
  ∀ (w n : Nat) (x : BitVec w), n < w →
    (shr n x).toNat = x.toNat / 2 ^ n ∧
    (0 < n → (rotr n x).toNat = x.toNat / 2 ^ n ||| x.toNat * 2 ^ (w - n) % 2 ^ w ∧
      ∀ i, i < w → (rotr n x).getLsbD i = x.getLsbD ((i + n) % w))

/-- R151 to R155 (the amounts are marked general knowledge in the spec; log entry 10): bit i of sigma0 and sigma1, for both
widths. -/
def Obligations.SmallSigmaBitByBit : Prop :=
  (∀ (x : BitVec 32) (i : Nat), i < 32 →
    (smallSigma0 .w32 x).getLsbD i =
      ((x.getLsbD ((i + 7) % 32) ^^ x.getLsbD ((i + 18) % 32)) ^^ (decide (i + 3 < 32) && x.getLsbD (i + 3))) ∧
    (smallSigma1 .w32 x).getLsbD i =
      ((x.getLsbD ((i + 17) % 32) ^^ x.getLsbD ((i + 19) % 32)) ^^ (decide (i + 10 < 32) && x.getLsbD (i + 10)))) ∧
  (∀ (x : BitVec 64) (i : Nat), i < 64 →
    (smallSigma0 .w64 x).getLsbD i =
      ((x.getLsbD ((i + 1) % 64) ^^ x.getLsbD ((i + 8) % 64)) ^^ (decide (i + 7 < 64) && x.getLsbD (i + 7))) ∧
    (smallSigma1 .w64 x).getLsbD i =
      ((x.getLsbD ((i + 19) % 64) ^^ x.getLsbD ((i + 61) % 64)) ^^ (decide (i + 6 < 64) && x.getLsbD (i + 6))))

/-- R170 to R174 (the amounts are marked general knowledge in the spec; log entry 10): bit i of Sigma0 and Sigma1, for both
widths. -/
def Obligations.BigSigmaBitByBit : Prop :=
  (∀ (x : BitVec 32) (i : Nat), i < 32 →
    (bigSigma0 .w32 x).getLsbD i =
      ((x.getLsbD ((i + 2) % 32) ^^ x.getLsbD ((i + 13) % 32)) ^^ x.getLsbD ((i + 22) % 32)) ∧
    (bigSigma1 .w32 x).getLsbD i =
      ((x.getLsbD ((i + 6) % 32) ^^ x.getLsbD ((i + 11) % 32)) ^^ x.getLsbD ((i + 25) % 32))) ∧
  (∀ (x : BitVec 64) (i : Nat), i < 64 →
    (bigSigma0 .w64 x).getLsbD i =
      ((x.getLsbD ((i + 28) % 64) ^^ x.getLsbD ((i + 34) % 64)) ^^ x.getLsbD ((i + 39) % 64)) ∧
    (bigSigma1 .w64 x).getLsbD i =
      ((x.getLsbD ((i + 14) % 64) ^^ x.getLsbD ((i + 18) % 64)) ^^ x.getLsbD ((i + 41) % 64)))

/-- R175 (marked general knowledge in the spec; log entry 10): each bit of Ch is y's where x is 1 and z's where x is 0; each
bit of Maj is the majority of the three. -/
def Obligations.ChChoosesAndMajVotes : Prop :=
  ∀ (w : Nat) (x y z : BitVec w) (i : Nat), i < w →
    (ch x y z).getLsbD i = (if x.getLsbD i then y.getLsbD i else z.getLsbD i) ∧
    (maj x y z).getLsbD i =
      decide (2 ≤ (x.getLsbD i).toNat + (y.getLsbD i).toNat + (z.getLsbD i).toNat)

/-- R150, R60: a block is 16 words, and the big-endian bytes of word j are the block's bytes j*wb to (j+1)*wb - 1. -/
def Obligations.BlockParsesIntoBigEndianWords : Prop :=
  ∀ (v : Variant) (blk : List Byte), blk.length = v.blockBytes →
    (parseBlock v.width blk).length = 16 ∧ v.blockBytes = 16 * v.width.bytes ∧
    ∀ j (hj : j < (parseBlock v.width blk).length),
      (parseBlock v.width blk)[j].toNat = beWord ((blk.drop (j * v.width.bytes)).take v.width.bytes) ∧
      beBytes v.width.bytes (parseBlock v.width blk)[j].toNat = (blk.drop (j * v.width.bytes)).take v.width.bytes

/-- R156: the schedule has R words, starts with the parsed block, and continues by the recurrence. -/
def Obligations.ScheduleFollowsTheRecurrence : Prop :=
  ∀ (ww : Width) (blk : List Byte), (schedule ww blk).length = ww.rounds ∧
    (∀ t, t < 16 → (schedule ww blk).getD t 0 = (parseBlock ww blk).getD t 0) ∧
    (∀ t, 16 ≤ t → t < ww.rounds → (schedule ww blk).getD t 0 =
      smallSigma1 ww ((schedule ww blk).getD (t - 2) 0) + (schedule ww blk).getD (t - 7) 0 +
        smallSigma0 ww ((schedule ww blk).getD (t - 15) 0) + (schedule ww blk).getD (t - 16) 0)

/-- R156's corner case, which the spec derives: an all-zero block has an all-zero schedule. -/
def Obligations.ZeroBlockHasZeroSchedule : Prop :=
  ∀ (v : Variant), schedule v.width (List.replicate v.blockBytes 0#8) = List.replicate v.width.rounds 0

/-- R176: one round (T1 and T2 are marked general knowledge in the spec; log entry 10). -/
def Obligations.RoundUpdatesAAndE : Prop :=
  ∀ (ww : Width) (a b c d e f g h wt kt : BitVec ww.bits),
    Sys2Proof.Machine.round ww ⟨a, b, c, d, e, f, g, h⟩ wt kt =
      ⟨(h + bigSigma1 ww e + ch e f g + kt + wt) + (bigSigma0 ww a + maj a b c), a, b, c,
       d + (h + bigSigma1 ww e + ch e f g + kt + wt), e, f, g⟩

/-- R177, R178 (that a .. h start as a copy of H is marked general knowledge in the spec; log entry 10): Compress starts the
working variables at H, runs round t with W[t] and K[t] for t in 0 .. R-1, and adds a to H[0] through h to H[7]. -/
def Obligations.CompressRunsEveryRoundAndFeedsForward : Prop :=
  ∀ (ww : Width) (hs : Vector (BitVec ww.bits) 8) (blk : List Byte), ∃ x : Nat → Work ww.bits,
    x 0 = ⟨hs[0], hs[1], hs[2], hs[3], hs[4], hs[5], hs[6], hs[7]⟩ ∧
    (∀ t, t < ww.rounds → x (t + 1) =
      Sys2Proof.Machine.round ww (x t) ((schedule ww blk).getD t 0) ((kWords ww).getD t 0)) ∧
    compress ww hs blk =
      #v[hs[0] + (x ww.rounds).a, hs[1] + (x ww.rounds).b, hs[2] + (x ww.rounds).c, hs[3] + (x ww.rounds).d,
         hs[4] + (x ww.rounds).e, hs[5] + (x ww.rounds).f, hs[6] + (x ww.rounds).g, hs[7] + (x ww.rounds).h]

/-! ## Variant configuration -/

/-- The VAR code and the parameters w, B, R, Lw, d, nd of the four variants, as R9's table has them; which B and R go with which
w rests on log entry 10 (PRESUMED): "The pairing of 64 bytes and 64 rounds with w = 32 is not stated in the source as a pairing
[from general knowledge, not in source]" (00_scope.md, under R9). And wb, Lb and LMAX, which R11 marks as derived. -/
def Obligations.VariantParameters : Prop :=
  (∀ v : Variant, (v.code.toNat, v.width.bits, v.blockBytes, v.width.rounds, v.lenBits, v.digestBytes, v.digestWords) =
    (match v with
      | .sha224 => (0, 32, 64, 64, 64, 28, 7)
      | .sha256 => (1, 32, 64, 64, 64, 32, 8)
      | .sha384 => (2, 64, 128, 80, 128, 48, 6)
      | .sha512 => (3, 64, 128, 80, 128, 64, 8))) ∧
  (∀ v : Variant, v.width.bytes = v.width.bits / 8 ∧ v.lenBytes = v.lenBits / 8 ∧ v.lmax = 2 ^ v.lenBits - 1)

/-- R191, R201 (that the K table is shared, and the IV values, are marked general knowledge in the spec; log entry 10):
SHA-224 has SHA-256's word width and block size, compresses and pads as it does, and keeps 7 words of its digest; SHA-384 has
SHA-512's, and keeps 6; their initial states differ in every word. -/
def Obligations.SharedLogicDistinctInitialStates : Prop :=
  (Variant.sha224.width = Variant.sha256.width ∧ Variant.sha384.width = Variant.sha512.width) ∧
  (Variant.sha224.blockBytes = Variant.sha256.blockBytes ∧ Variant.sha384.blockBytes = Variant.sha512.blockBytes) ∧
  (Variant.sha224.digestWords = 7 ∧ Variant.sha256.digestWords = 8 ∧
    Variant.sha384.digestWords = 6 ∧ Variant.sha512.digestWords = 8) ∧
  (∀ cells blk, compressCells .sha224 cells blk = compressCells .sha256 cells blk) ∧
  (∀ cells blk, compressCells .sha384 cells blk = compressCells .sha512 cells blk) ∧
  (∀ r L, pad .sha224 r L = pad .sha256 r L ∧ pad .sha384 r L = pad .sha512 r L) ∧
  (∀ i : Fin 8, (ivCells .sha224)[i] ≠ (ivCells .sha256)[i] ∧ (ivCells .sha384)[i] ≠ (ivCells .sha512)[i])

/-- R200 (marked general knowledge in the spec; log entry 10): the constants are the fractional parts of square and cube
roots of the primes, cut to w bits; p t is prime number t counted from 0. -/
def Obligations.ConstantsAreRootsOfPrimes : Prop :=
  ∃ p : Nat → Nat, (∀ t, p t = Nat.nth Nat.Prime t) ∧
    (∀ t, t < 64 → ∃ c, c ^ 3 ≤ p t * 2 ^ 96 ∧ p t * 2 ^ 96 < (c + 1) ^ 3 ∧
      ((kWords .w32).getD t 0).toNat = c % 2 ^ 32) ∧
    (∀ t, t < 80 → ∃ c, c ^ 3 ≤ p t * 2 ^ 192 ∧ p t * 2 ^ 192 < (c + 1) ^ 3 ∧
      ((kWords .w64).getD t 0).toNat = c % 2 ^ 64) ∧
    (∀ t, t < 64 → ((kWords .w32).getD t 0).toNat = ((kWords .w64).getD t 0).toNat / 2 ^ 32) ∧
    (∀ i : Fin 8, ∃ c, c ^ 2 ≤ p i * 2 ^ 64 ∧ p i * 2 ^ 64 < (c + 1) ^ 2 ∧
      (ivCells .sha256)[i].toNat = c % 2 ^ 32) ∧
    (∀ i : Fin 8, ∃ c, c ^ 2 ≤ p i * 2 ^ 128 ∧ p i * 2 ^ 128 < (c + 1) ^ 2 ∧
      (ivCells .sha512)[i].toNat = c % 2 ^ 64) ∧
    (∀ i : Fin 8, ∃ c, c ^ 2 ≤ p (i + 8) * 2 ^ 128 ∧ p (i + 8) * 2 ^ 128 < (c + 1) ^ 2 ∧
      (ivCells .sha384)[i].toNat = c % 2 ^ 64) ∧
    (∀ i : Fin 8, (ivCells .sha224)[i].toNat = (ivCells .sha384)[i].toNat % 2 ^ 32)

/-! ## Several instances -/

/-- Commands to different instances commute, as R71 says. That instances are a list, that stepInstance replaces one entry of it,
and that it answers none where there is no step, is the model's own choice (log entry 14, DESIGN CHOICE). -/
def Obligations.InstancesAreIndependent : Prop :=
  ∀ (engines : List State) (j k : Nat), j ≠ k →
    (stepInstance j engines).bind (stepInstance k) = (stepInstance k engines).bind (stepInstance j)
end

