-- ==== Sys2Proof/Laws/Bytes.lean ====
section
/-! SUPPORT. Big-endian encoding and reading are inverse (spec/00_scope.md R15). -/

namespace Sys2Proof.Machine

theorem pow256 (n : Nat) : (256 : Nat) ^ n = 2 ^ (8 * n) := by
  rw [pow_mul]
  norm_num

@[simp] theorem beBytes_length (n v : Nat) : (beBytes n v).length = n := by
  induction n with
  | zero => rfl
  | succ n ih => simp [beBytes, ih]

theorem beWord_foldl (s : List Byte) (a : Nat) :
    s.foldl (fun acc b => acc * 256 + b.toNat) a = a * 256 ^ s.length + beWord s := by
  unfold beWord
  induction s generalizing a with
  | nil => simp
  | cons b s ih =>
    simp only [List.foldl_cons, List.length_cons]
    rw [ih (a * 256 + b.toNat), ih (0 * 256 + b.toNat)]
    ring

theorem beWord_cons (b : Byte) (s : List Byte) : beWord (b :: s) = b.toNat * 256 ^ s.length + beWord s := by
  have h := beWord_foldl s b.toNat
  simpa [beWord] using h

@[simp] theorem beWord_nil : beWord [] = 0 := rfl

theorem beWord_lt (s : List Byte) : beWord s < 256 ^ s.length := by
  induction s with
  | nil => simp
  | cons b s ih =>
    rw [beWord_cons, List.length_cons, pow_succ]
    have := b.isLt
    nlinarith

theorem beWord_beBytes_mod (n v : Nat) : beWord (beBytes n v) = v % 256 ^ n := by
  induction n with
  | zero => simp [beBytes, Nat.mod_one]
  | succ n ih =>
    rw [beBytes, beWord_cons, beBytes_length, ih]
    have hbyte : (BitVec.ofNat 8 (v >>> (8 * n))).toNat = v / 256 ^ n % 256 := by
      rw [BitVec.toNat_ofNat, Nat.shiftRight_eq_div_pow, pow256]
    rw [hbyte, pow_succ, Nat.mod_mul, Nat.mul_comm, Nat.add_comm]

/-- be_word(be_bytes(n, v)) = v for v < 2^(8n) (R15). -/
theorem beWord_beBytes {n v : Nat} (h : v < 256 ^ n) : beWord (beBytes n v) = v := by
  rw [beWord_beBytes_mod, Nat.mod_eq_of_lt h]

theorem beBytes_mod (n v : Nat) : beBytes n v = beBytes n (v % 256 ^ n) := by
  induction n generalizing v with
  | zero => rfl
  | succ n ih =>
    have hmod : v % 256 ^ (n + 1) % 256 ^ n = v % 256 ^ n :=
      Nat.mod_mod_of_dvd _ (pow_dvd_pow _ (Nat.le_succ n))
    rw [beBytes, beBytes, ih v, ih (v % 256 ^ (n + 1)), hmod]
    congr 1
    apply BitVec.eq_of_toNat_eq
    rw [BitVec.toNat_ofNat, BitVec.toNat_ofNat, Nat.shiftRight_eq_div_pow, Nat.shiftRight_eq_div_pow, ← pow256,
      pow_succ 256 n, Nat.mod_mul_right_div_self]
    exact (Nat.mod_mod _ _).symm

/-- be_bytes is the inverse of be_word (R15). -/
theorem beBytes_beWord (s : List Byte) : beBytes s.length (beWord s) = s := by
  induction s with
  | nil => rfl
  | cons b s ih =>
    have hlt := beWord_lt s
    rw [List.length_cons, beBytes, beBytes_mod s.length, beWord_cons]
    congr 1
    · apply BitVec.eq_of_toNat_eq
      rw [BitVec.toNat_ofNat, Nat.shiftRight_eq_div_pow, ← pow256, Nat.mul_comm, Nat.mul_add_div (by positivity),
        Nat.div_eq_of_lt hlt, Nat.add_zero, Nat.mod_eq_of_lt b.isLt]
    · rw [Nat.add_comm, Nat.add_mul_mod_self_right, Nat.mod_eq_of_lt hlt, ih]

/-- Byte i of be_bytes(n, v) is v[8(n-1-i)+7 : 8(n-1-i)] (R15). -/
theorem beBytes_getElem? (n v i : Nat) (h : i < n) :
    (beBytes n v)[i]? = some (BitVec.ofNat 8 (v >>> (8 * (n - 1 - i)))) := by
  induction n generalizing i with
  | zero => omega
  | succ n ih =>
    cases i with
    | zero => simp [beBytes]
    | succ i =>
      rw [beBytes, List.getElem?_cons_succ, ih i (by omega)]
      congr 4
      omega

@[simp] theorem zeroBytes_length (k : Nat) : (zeroBytes k).length = k := by simp [zeroBytes]

end Sys2Proof.Machine
end

