-- ==== Sys2Proof/Laws/Compression.lean ====
section
/-! SUPPORT. The cells of H hold words of the variant's width (spec/10_state.md R34), and the lengths of the schedule, the
constant tables and the digest. -/

namespace Sys2Proof.Machine

theorem wordBits_le (ww : Width) : ww.bits ≤ 64 := by cases ww <;> decide

@[simp] theorem resizeWords_getElem {w : Nat} (w' : Nat) (hs : Vector (BitVec w) 8) (i : Nat) (hi : i < 8) :
    (resizeWords w' hs)[i] = hs[i].setWidth w' := by
  interval_cases i <;> rfl

/-- A written cell is below 2^w (R34). -/
theorem cellsOfWords_lt (ww : Width) (hs : Vector (BitVec ww.bits) 8) (i : Nat) (hi : i < 8) :
    (cellsOfWords ww hs)[i].toNat < 2 ^ ww.bits := by
  simp only [cellsOfWords, resizeWords_getElem, BitVec.toNat_setWidth]
  exact lt_of_le_of_lt (Nat.mod_le _ _) (hs[i]).isLt

/-- Reading back what was written. -/
@[simp] theorem wordsOfCells_cellsOfWords (ww : Width) (hs : Vector (BitVec ww.bits) 8) :
    wordsOfCells ww (cellsOfWords ww hs) = hs := by
  have h := wordBits_le ww
  ext i hi
  simp only [wordsOfCells, cellsOfWords, resizeWords_getElem, BitVec.getElem_setWidth, BitVec.getLsbD_setWidth]
  rename_i j hj
  simp only [BitVec.getLsbD_eq_getElem hj, Bool.and_eq_right_iff_imp]
  intro _
  simp; omega

@[simp] theorem kWords_length (ww : Width) : (kWords ww).length = ww.rounds := by cases ww <;> rfl

@[simp] theorem parseBlock_length (ww : Width) (blk : List Byte) : (parseBlock ww blk).length = 16 := by
  simp [parseBlock]

@[simp] theorem extendSchedule_length (ww : Width) (k : Nat) (l : List (BitVec ww.bits)) :
    (extendSchedule ww k l).length = k + l.length := by
  induction k generalizing l with
  | zero => simp [extendSchedule]
  | succ k ih => rw [extendSchedule, ih]; simp; omega

@[simp] theorem schedule_length (ww : Width) (blk : List Byte) : (schedule ww blk).length = ww.rounds := by
  simp only [schedule, List.length_reverse, extendSchedule_length, parseBlock_length]
  cases ww <;> rfl

/-- The digest has d bytes (R210). -/
theorem formatDigest_length (v : Variant) (cells : Vector Cell 8) : (formatDigest v cells).length = v.digestBytes := by
  have h8 : ((wordsOfCells v.width cells).toList.flatMap (fun x => beBytes v.width.bytes x.toNat)).length =
      8 * v.width.bytes := by
    simp [List.length_flatMap]
    omega
  rw [formatDigest, List.length_take, h8]
  cases v <;> decide

end Sys2Proof.Machine
end

