-- ==== Sys2Proof/Laws/Decode.lean ====
section
/-! SUPPORT. Reading a word from its four bytes, and what each encoded word decodes to (spec/30_encoding.md R80 to R87). -/

namespace Sys2Proof

open Sys2Proof.Machine

/-- The four bytes of a word read back as the word (R80). -/
theorem ofNat_beWord_beBytes (w : CommandWord) : BitVec.ofNat 32 (beWord (beBytes 4 w.toNat)) = w := by
  rw [beWord_beBytes (by simpa using w.isLt), BitVec.ofNat_toNat, BitVec.setWidth_eq]

/-- Any four bytes are the bytes of the word they read as. -/
theorem beBytes_ofNat_beWord (b0 b1 b2 b3 : Byte) :
    beBytes 4 (BitVec.ofNat 32 (beWord [b0, b1, b2, b3])).toNat = [b0, b1, b2, b3] := by
  have h := beWord_lt [b0, b1, b2, b3]
  rw [BitVec.toNat_ofNat, Nat.mod_eq_of_lt (by simpa using h)]
  exact beBytes_beWord [b0, b1, b2, b3]

/-- What a word and the bytes after it decode to. -/
theorem decodeStream_word (w : CommandWord) (rest : List Byte) :
    decodeStream (beBytes 4 w.toNat ++ rest) =
      match decodeWord w with
      | .init v => .command (.init v) rest
      | .input n => takePayload n.toNat rest
      | .hash => .command .hash rest
      | .illegal why => .illegal why rest := by
  conv_rhs => rw [← ofNat_beWord_beBytes w]
  rfl

/-- A stream of at least four bytes starts with the bytes of a word. -/
theorem exists_word {bytes : List Byte} (h : 4 ≤ bytes.length) :
    ∃ w : CommandWord, bytes = beBytes 4 w.toNat ++ bytes.drop 4 := by
  match bytes, h with
  | b0 :: b1 :: b2 :: b3 :: rest, _ =>
    exact ⟨BitVec.ofNat 32 (beWord [b0, b1, b2, b3]), by rw [beBytes_ofNat_beWord]; rfl⟩

theorem decodeStream_short {bytes : List Byte} (h : bytes.length < 4) : decodeStream bytes = .partialWord := by
  match bytes, h with
  | [], _ => rfl
  | [_], _ => rfl
  | [_, _], _ => rfl
  | [_, _, _], _ => rfl

@[simp] theorem ofCode_code (v : Variant) : Variant.ofCode v.code = v := by cases v <;> rfl

theorem code_ofCode (c : Code2) : (Variant.ofCode c).code = c := by
  revert c; decide

theorem decodeWord_init (v : Variant) : decodeWord (encodeWord (.init v)) = .init v := by
  cases v <;> decide

theorem decodeWord_hash : decodeWord (encodeWord .hash) = .hash := by decide

theorem opField_input (n : BitVec 28) : opField (0x2#4 ++ n) = 0x2#4 := by
  apply BitVec.eq_of_getLsbD_eq
  intro i hi
  have h := BitVec.getLsbD_append (x := 0x2#4) (y := n) (i := 28 + i)
  simpa [opField, hi] using h

theorem argField_append (op : BitVec 4) (n : BitVec 28) : argField (op ++ n) = n := by
  apply BitVec.eq_of_getLsbD_eq
  intro i hi
  have h := BitVec.getLsbD_append (x := op) (y := n) (i := i)
  simpa [argField, hi] using h

theorem decodeWord_inputWord (n : BitVec 28) : decodeWord (0x2#4 ++ n) = .input n := by
  unfold decodeWord
  rw [opField_input, argField_append]
  simp

/-- A word is its OP and ARG fields (R81). -/
theorem word_eq_fields (w : CommandWord) : w = opField w ++ argField w := by
  apply BitVec.eq_of_getLsbD_eq
  intro i hi
  rw [BitVec.getLsbD_append]
  by_cases h : i < 28
  · simp [argField, h]
  · simp [opField, h, show i - 28 < 4 by omega, show 28 + (i - 28) = i by omega]

/-- ARG is INIT's RSV and VAR fields (R82). -/
theorem arg_eq_fields (w : CommandWord) : argField w = initReservedField w ++ varField w := by
  apply BitVec.eq_of_getLsbD_eq
  intro i hi
  rw [BitVec.getLsbD_append]
  by_cases h : i < 2
  · simp [argField, varField, h, hi]
  · simp [argField, initReservedField, h, hi, show i - 2 < 26 by omega, show 2 + (i - 2) = i by omega]

/-- Only INIT's own words decode to INIT. -/
theorem word_of_init {w : CommandWord} {v : Variant} (h : decodeWord w = .init v) : w = encodeWord (.init v) := by
  unfold decodeWord at h
  split at h
  · next hop =>
    split at h
    · next hr =>
      cases h
      rw [word_eq_fields w, hop, arg_eq_fields w, hr]
      simp only [encodeWord, code_ofCode]
      generalize varField w = c
      revert c
      decide
    · cases h
  · split at h
    · cases h
    · split at h
      · split at h <;> cases h
      · cases h

/-- Only INPUT's own words decode to INPUT. -/
theorem word_of_input {w : CommandWord} {n : BitVec 28} (h : decodeWord w = .input n) : w = 0x2#4 ++ n := by
  unfold decodeWord at h
  split at h
  · split at h <;> cases h
  · split at h
    · next hop =>
      cases h
      exact (word_eq_fields w).trans (by rw [hop])
    · split at h
      · split at h <;> cases h
      · cases h

/-- Only HASH's own word decodes to HASH. -/
theorem word_of_hash {w : CommandWord} (h : decodeWord w = .hash) : w = encodeWord .hash := by
  unfold decodeWord at h
  split at h
  · split at h <;> cases h
  · split at h
    · cases h
    · split at h
      · next hop =>
        split at h
        · next ha => exact (word_eq_fields w).trans (by rw [hop, ha]; rfl)
        · cases h
      · cases h

end Sys2Proof
end

