-- ==== Sys2Proof/Laws/State.lean ====
section
/-! SUPPORT. What each update of State leaves in each field, once, so that no later proof unfolds a record update. -/

namespace Sys2Proof.Machine

/-! ### respond -/

@[simp] theorem respond_var (c : Byte) (d : List Byte) (s : State) : (respond c d s).var = s.var := rfl
@[simp] theorem respond_status (c : Byte) (d : List Byte) (s : State) : (respond c d s).status = s.status := rfl
@[simp] theorem respond_err (c : Byte) (d : List Byte) (s : State) : (respond c d s).err = s.err := rfl
@[simp] theorem respond_h (c : Byte) (d : List Byte) (s : State) : (respond c d s).h = s.h := rfl
@[simp] theorem respond_buf (c : Byte) (d : List Byte) (s : State) : (respond c d s).buf = s.buf := rfl
@[simp] theorem respond_bufLen (c : Byte) (d : List Byte) (s : State) : (respond c d s).bufLen = s.bufLen := rfl
@[simp] theorem respond_len (c : Byte) (d : List Byte) (s : State) : (respond c d s).len = s.len := rfl
@[simp] theorem respond_stream (c : Byte) (d : List Byte) (s : State) : (respond c d s).stream = s.stream := rfl
@[simp] theorem respond_sent (c : Byte) (d : List Byte) (s : State) :
    (respond c d s).sent = s.sent ++ [{ code := c, digest := d }] := rfl

/-! ### raiseError (the fault entry) -/

@[simp] theorem raiseError_var (e : EngineError) (s : State) : (raiseError e s).var = s.var := rfl
@[simp] theorem raiseError_status (e : EngineError) (s : State) : (raiseError e s).status = .faulted := rfl
@[simp] theorem raiseError_err (e : EngineError) (s : State) : (raiseError e s).err = errAfter e s := rfl
@[simp] theorem raiseError_h (e : EngineError) (s : State) : (raiseError e s).h = s.h := rfl
@[simp] theorem raiseError_buf (e : EngineError) (s : State) : (raiseError e s).buf = s.buf := rfl
@[simp] theorem raiseError_bufLen (e : EngineError) (s : State) : (raiseError e s).bufLen = s.bufLen := rfl
@[simp] theorem raiseError_len (e : EngineError) (s : State) : (raiseError e s).len = s.len := rfl
@[simp] theorem raiseError_stream (e : EngineError) (s : State) : (raiseError e s).stream = s.stream := rfl
@[simp] theorem raiseError_sent (e : EngineError) (s : State) :
    (raiseError e s).sent = s.sent ++ [{ code := e.code, digest := [] }] := rfl

/-! ### pushByte -/

@[simp] theorem pushByte_var (x : Byte) (s : State) : (pushByte x s).var = s.var := rfl
@[simp] theorem pushByte_status (x : Byte) (s : State) : (pushByte x s).status = s.status := rfl
@[simp] theorem pushByte_err (x : Byte) (s : State) : (pushByte x s).err = s.err := rfl
@[simp] theorem pushByte_h (x : Byte) (s : State) : (pushByte x s).h = s.h := rfl
@[simp] theorem pushByte_buf (x : Byte) (s : State) :
    (pushByte x s).buf = s.buf.setIfInBounds s.bufLen.toNat x := rfl
@[simp] theorem pushByte_bufLen (x : Byte) (s : State) : (pushByte x s).bufLen = s.bufLen + 1#8 := rfl
@[simp] theorem pushByte_len (x : Byte) (s : State) : (pushByte x s).len = s.len := rfl
@[simp] theorem pushByte_stream (x : Byte) (s : State) : (pushByte x s).stream = s.stream := rfl
@[simp] theorem pushByte_sent (x : Byte) (s : State) : (pushByte x s).sent = s.sent := rfl

/-! ### countBytes -/

@[simp] theorem countBytes_var (n : Nat) (s : State) : (countBytes n s).var = s.var := rfl
@[simp] theorem countBytes_status (n : Nat) (s : State) : (countBytes n s).status = s.status := rfl
@[simp] theorem countBytes_err (n : Nat) (s : State) : (countBytes n s).err = s.err := rfl
@[simp] theorem countBytes_h (n : Nat) (s : State) : (countBytes n s).h = s.h := rfl
@[simp] theorem countBytes_buf (n : Nat) (s : State) : (countBytes n s).buf = s.buf := rfl
@[simp] theorem countBytes_bufLen (n : Nat) (s : State) : (countBytes n s).bufLen = s.bufLen := rfl
@[simp] theorem countBytes_len (n : Nat) (s : State) :
    (countBytes n s).len = BitVec.ofNat 128 (s.len.toNat + 8 * n) := rfl
@[simp] theorem countBytes_stream (n : Nat) (s : State) : (countBytes n s).stream = s.stream := rfl
@[simp] theorem countBytes_sent (n : Nat) (s : State) : (countBytes n s).sent = s.sent := rfl

/-! ### consumeTo, placeAtHead and receive: only the stream changes -/

@[simp] theorem consumeTo_var (r : List Byte) (s : State) : (consumeTo r s).var = s.var := rfl
@[simp] theorem consumeTo_status (r : List Byte) (s : State) : (consumeTo r s).status = s.status := rfl
@[simp] theorem consumeTo_err (r : List Byte) (s : State) : (consumeTo r s).err = s.err := rfl
@[simp] theorem consumeTo_h (r : List Byte) (s : State) : (consumeTo r s).h = s.h := rfl
@[simp] theorem consumeTo_buf (r : List Byte) (s : State) : (consumeTo r s).buf = s.buf := rfl
@[simp] theorem consumeTo_bufLen (r : List Byte) (s : State) : (consumeTo r s).bufLen = s.bufLen := rfl
@[simp] theorem consumeTo_len (r : List Byte) (s : State) : (consumeTo r s).len = s.len := rfl
@[simp] theorem consumeTo_stream (r : List Byte) (s : State) : (consumeTo r s).stream = r := rfl
@[simp] theorem consumeTo_sent (r : List Byte) (s : State) : (consumeTo r s).sent = s.sent := rfl
@[simp] theorem consumeTo_placeAtHead (r : List Byte) (s : State) :
    consumeTo s.stream (placeAtHead r s) = s := rfl
@[simp] theorem placeAtHead_stream (r : List Byte) (s : State) : (placeAtHead r s).stream = r ++ s.stream := rfl
@[simp] theorem receive_stream (r : List Byte) (s : State) : (s.receive r).stream = s.stream ++ r := rfl
@[simp] theorem consumeTo_receive (r q : List Byte) (s : State) :
    consumeTo q (s.receive r) = consumeTo q s := rfl

/-! ### pending: only BUF and BUFLEN matter -/

@[simp] theorem bufBlock_eq (s : State) : bufBlock s = s.buf.toList.take s.var.blockBytes := rfl

end Sys2Proof.Machine
end

