-- ==== Sys2Proof/Laws/Ops.lean ====
section
/-! SUPPORT. What the shared operations do, once: absorbing bytes (spec/40_accumulator.md R101) byte by byte and block by
block, and what it leaves alone. -/

namespace Sys2Proof.Machine

theorem blockBytes_pos (v : Variant) : 0 < v.blockBytes := by cases v <;> decide

theorem blockBytes_le (v : Variant) : v.blockBytes ≤ 128 := by cases v <;> decide

theorem lmax_lt (v : Variant) : v.lmax < 2 ^ 128 := by cases v <;> decide

/-! ### One byte: the two cases of absorb -/

/-- absorb on a byte that completes the block. -/
theorem absorb_full {x : Byte} {s : State} (h : (s.bufLen + 1#8).toNat = s.var.blockBytes) :
    absorb x s = { pushByte x s with
      h := compressCells s.var s.h (bufBlock (pushByte x s)), bufLen := 0#8 } := by
  exact if_pos h

/-- absorb on a byte that does not complete the block. -/
theorem absorb_room {x : Byte} {s : State} (h : (s.bufLen + 1#8).toNat ≠ s.var.blockBytes) :
    absorb x s = pushByte x s := if_neg h

/-- absorb writes BUF, BUFLEN and H only (R101). -/
theorem absorb_frame (x : Byte) (s : State) :
    (absorb x s).var = s.var ∧ (absorb x s).status = s.status ∧ (absorb x s).err = s.err ∧
    (absorb x s).len = s.len ∧ (absorb x s).stream = s.stream ∧ (absorb x s).sent = s.sent := by
  by_cases h : (s.bufLen + 1#8).toNat = s.var.blockBytes
  · rw [absorb_full h]; simp
  · rw [absorb_room h]; simp

@[simp] theorem absorb_var (x : Byte) (s : State) : (absorb x s).var = s.var := (absorb_frame x s).1
@[simp] theorem absorb_status (x : Byte) (s : State) : (absorb x s).status = s.status := (absorb_frame x s).2.1
@[simp] theorem absorb_err (x : Byte) (s : State) : (absorb x s).err = s.err := (absorb_frame x s).2.2.1
@[simp] theorem absorb_len (x : Byte) (s : State) : (absorb x s).len = s.len := (absorb_frame x s).2.2.2.1
@[simp] theorem absorb_stream (x : Byte) (s : State) : (absorb x s).stream = s.stream := (absorb_frame x s).2.2.2.2.1
@[simp] theorem absorb_sent (x : Byte) (s : State) : (absorb x s).sent = s.sent := (absorb_frame x s).2.2.2.2.2

/-- Every byte absorb stores goes to BUF[BUFLEN] (R101). -/
@[simp] theorem absorb_buf (x : Byte) (s : State) :
    (absorb x s).buf = s.buf.setIfInBounds s.bufLen.toNat x := by
  by_cases h : (s.bufLen + 1#8).toNat = s.var.blockBytes
  · rw [absorb_full h]; rfl
  · rw [absorb_room h]; rfl

theorem absorb_h (x : Byte) (s : State) : (absorb x s).h =
    if (s.bufLen + 1#8).toNat = s.var.blockBytes then compressCells s.var s.h (bufBlock (pushByte x s)) else s.h := by
  split
  · next h => rw [absorb_full h]
  · next h => rw [absorb_room h]; rfl

theorem absorb_bufLen (x : Byte) (s : State) : (absorb x s).bufLen =
    if (s.bufLen + 1#8).toNat = s.var.blockBytes then 0#8 else s.bufLen + 1#8 := by
  split
  · next h => rw [absorb_full h]
  · next h => rw [absorb_room h]; rfl

/-! ### Many bytes -/

@[simp] theorem absorbAll_nil (s : State) : absorbAll [] s = s := rfl

@[simp] theorem absorbAll_cons (x : Byte) (xs : List Byte) (s : State) :
    absorbAll (x :: xs) s = absorbAll xs (absorb x s) := rfl

theorem absorbAll_append (xs ys : List Byte) (s : State) :
    absorbAll (xs ++ ys) s = absorbAll ys (absorbAll xs s) := by
  induction xs generalizing s with
  | nil => rfl
  | cons x xs ih => exact ih (absorb x s)

/-- absorbAll writes BUF, BUFLEN and H only (R101). -/
theorem absorbAll_frame (xs : List Byte) (s : State) :
    (absorbAll xs s).var = s.var ∧ (absorbAll xs s).status = s.status ∧ (absorbAll xs s).err = s.err ∧
    (absorbAll xs s).len = s.len ∧ (absorbAll xs s).stream = s.stream ∧ (absorbAll xs s).sent = s.sent := by
  induction xs generalizing s with
  | nil => simp
  | cons x xs ih => simpa using ih (absorb x s)

@[simp] theorem absorbAll_var (xs : List Byte) (s : State) : (absorbAll xs s).var = s.var := (absorbAll_frame xs s).1
@[simp] theorem absorbAll_status (xs : List Byte) (s : State) : (absorbAll xs s).status = s.status :=
  (absorbAll_frame xs s).2.1
@[simp] theorem absorbAll_err (xs : List Byte) (s : State) : (absorbAll xs s).err = s.err :=
  (absorbAll_frame xs s).2.2.1
@[simp] theorem absorbAll_len (xs : List Byte) (s : State) : (absorbAll xs s).len = s.len :=
  (absorbAll_frame xs s).2.2.2.1
@[simp] theorem absorbAll_stream (xs : List Byte) (s : State) : (absorbAll xs s).stream = s.stream :=
  (absorbAll_frame xs s).2.2.2.2.1
@[simp] theorem absorbAll_sent (xs : List Byte) (s : State) : (absorbAll xs s).sent = s.sent :=
  (absorbAll_frame xs s).2.2.2.2.2

/-! ### absorb on the registers alone: it does not see LEN, the stream or the responses -/

theorem absorbAll_respond (xs : List Byte) (c : Byte) (d : List Byte) (s : State) :
    absorbAll xs (respond c d s) = respond c d (absorbAll xs s) := by
  induction xs generalizing s with
  | nil => rfl
  | cons x xs ih =>
    have h : absorb x (respond c d s) = respond c d (absorb x s) := by
      by_cases h : (s.bufLen + 1#8).toNat = s.var.blockBytes
      · rw [absorb_full h, absorb_full (by simpa using h)]; rfl
      · rw [absorb_room h, absorb_room (by simpa using h)]; rfl
    rw [absorbAll_cons, absorbAll_cons, h, ih]

theorem absorbAll_countBytes (xs : List Byte) (n : Nat) (s : State) :
    absorbAll xs (countBytes n s) = countBytes n (absorbAll xs s) := by
  induction xs generalizing s with
  | nil => rfl
  | cons x xs ih =>
    have h : absorb x (countBytes n s) = countBytes n (absorb x s) := by
      by_cases h : (s.bufLen + 1#8).toNat = s.var.blockBytes
      · rw [absorb_full h, absorb_full (by simpa using h)]; rfl
      · rw [absorb_room h, absorb_room (by simpa using h)]; rfl
    rw [absorbAll_cons, absorbAll_cons, h, ih]

/-- Where the total fits, LEN counts without wrapping (R39). -/
theorem countBytes_len_toNat {s : State} {n : Nat} (h : s.len.toNat + 8 * n ≤ s.var.lmax) :
    (countBytes n s).len.toNat = s.len.toNat + 8 * n := by
  have := lmax_lt s.var
  rw [countBytes_len, BitVec.toNat_ofNat, Nat.mod_eq_of_lt (by omega)]

/-- Counting twice is counting the sum. -/
theorem countBytes_countBytes {s : State} {m : Nat} (n : Nat) (h : s.len.toNat + 8 * m ≤ s.var.lmax) :
    countBytes n (countBytes m s) = countBytes (m + n) s := by
  have hlen := countBytes_len_toNat h
  have : BitVec.ofNat 128 ((countBytes m s).len.toNat + 8 * n) = BitVec.ofNat 128 (s.len.toNat + 8 * (m + n)) := by
    rw [hlen]; congr 1; omega
  unfold countBytes at this ⊢
  simp only [this]

/-! ### Block by block -/

theorem take_set_append {α : Type} (l : List α) (k : Nat) (x : α) (h : k < l.length) :
    (l.set k x).take (k + 1) = l.take k ++ [x] := by
  rw [List.take_set, List.take_succ_eq_append_getElem h,
    List.set_append_right _ _ (by simp), List.length_take, Nat.min_eq_left h.le]
  simp

/-- Pushing a byte appends it to the pending bytes. -/
theorem pushByte_pending {x : Byte} {s : State} (h : s.bufLen.toNat < 128) :
    (pushByte x s).pending = s.pending ++ [x] := by
  have h1 : (s.bufLen + 1#8).toNat = s.bufLen.toNat + 1 := by
    rw [BitVec.toNat_add]; simp; omega
  simp only [State.pending, pushByte_buf, pushByte_bufLen, h1, Vector.toList_setIfInBounds]
  exact take_set_append _ _ _ (by simpa using h)

theorem pending_length {s : State} (h : s.bufLen.toNat ≤ 128) : s.pending.length = s.bufLen.toNat := by
  simpa [State.pending] using h

@[simp] theorem pending_respond (c : Byte) (d : List Byte) (s : State) : (respond c d s).pending = s.pending := rfl
@[simp] theorem pending_countBytes (n : Nat) (s : State) : (countBytes n s).pending = s.pending := rfl
@[simp] theorem pending_consumeTo (r : List Byte) (s : State) : (consumeTo r s).pending = s.pending := rfl

/-- absorb of a byte that completes the block: the block is the pending bytes and the new one. -/
theorem absorb_completes {x : Byte} {s : State} (h : s.bufLen.toNat + 1 = s.var.blockBytes) :
    (absorb x s).h = compressCells s.var s.h (s.pending ++ [x]) ∧ (absorb x s).bufLen = 0#8 ∧
    (absorb x s).pending = [] := by
  have hB := blockBytes_le s.var
  have h1 : (s.bufLen + 1#8).toNat = s.bufLen.toNat + 1 := by
    rw [BitVec.toNat_add]; simp; omega
  have hp : bufBlock (pushByte x s) = s.pending ++ [x] := by
    rw [← pushByte_pending (by omega)]
    simp only [bufBlock, State.pending, pushByte_bufLen, pushByte_var, h1, h]
  rw [absorb_full (by rw [h1, h])]
  exact ⟨by rw [← hp], rfl, by simp [State.pending]⟩

/-- absorb of a byte that leaves room: the byte joins the pending ones. -/
theorem absorb_appends {x : Byte} {s : State} (h : s.bufLen.toNat + 1 < s.var.blockBytes) :
    (absorb x s).h = s.h ∧ (absorb x s).bufLen.toNat = s.bufLen.toNat + 1 ∧
    (absorb x s).pending = s.pending ++ [x] := by
  have hB := blockBytes_le s.var
  have h1 : (s.bufLen + 1#8).toNat = s.bufLen.toNat + 1 := by
    rw [BitVec.toNat_add]; simp; omega
  rw [absorb_room (by omega)]
  exact ⟨rfl, h1, pushByte_pending (by omega)⟩

/-- Absorbing a sequence is appending it to the pending bytes and then consuming every full block, in order; the rest stays
pending (R101's second reading). -/
theorem absorbAll_consumes (xs : List Byte) (s : State) (h : s.bufLen.toNat < s.var.blockBytes) :
    (absorbAll xs s).h =
      compressBlocks s.var ((s.pending ++ xs).length / s.var.blockBytes) s.h (s.pending ++ xs) ∧
    (absorbAll xs s).bufLen.toNat = (s.pending ++ xs).length % s.var.blockBytes ∧
    (absorbAll xs s).pending =
      (s.pending ++ xs).drop ((s.pending ++ xs).length / s.var.blockBytes * s.var.blockBytes) := by
  have hB := blockBytes_le s.var
  induction xs generalizing s with
  | nil =>
    have hl := pending_length (s := s) (by omega)
    simp only [absorbAll_nil, List.append_nil, hl, Nat.div_eq_of_lt h, Nat.mod_eq_of_lt h]
    simp [compressBlocks]
  | cons x xs ih =>
    have hl := pending_length (s := s) (by omega)
    rw [absorbAll_cons]
    by_cases hc : s.bufLen.toNat + 1 = s.var.blockBytes
    · obtain ⟨hh, hb, hp⟩ := absorb_completes (x := x) hc
      have := ih (absorb x s) (by simp [hb, blockBytes_pos]) (by simpa using hB)
      have happ : s.pending ++ x :: xs = (s.pending ++ [x]) ++ xs := by simp
      have hlen : (s.pending ++ [x]).length = s.var.blockBytes := by simp [hl, hc]
      have htot : (s.pending ++ x :: xs).length = xs.length + s.var.blockBytes := by
        rw [happ, List.length_append, hlen, Nat.add_comm]
      have htake : (s.pending ++ x :: xs).take s.var.blockBytes = s.pending ++ [x] := by
        rw [happ, List.take_append_of_le_length (by omega), List.take_of_length_le (by omega)]
      have hdrop : (s.pending ++ x :: xs).drop s.var.blockBytes = xs := by
        rw [happ, List.drop_append_of_le_length (by omega), List.drop_of_length_le (by omega), List.nil_append]
      rw [hp, hh, absorb_var] at this
      rw [htot, Nat.add_div_right _ (blockBytes_pos _), Nat.add_mod_right]
      refine ⟨?_, by simpa using this.2.1, ?_⟩
      · rw [this.1, compressBlocks, htake, hdrop]; rfl
      · rw [this.2.2, Nat.succ_mul, Nat.add_comm, ← List.drop_drop, hdrop]; simp
    · obtain ⟨hh, hb, hp⟩ := absorb_appends (x := x) (s := s) (by omega)
      have := ih (absorb x s) (by rw [hb]; simp only [absorb_var]; omega) (by simpa using hB)
      rw [hp, hh, absorb_var] at this
      simpa using this

/-- BUFLEN after one byte, counted modulo the block. -/
theorem absorb_bufLen_toNat {x : Byte} {s : State} (h : s.bufLen.toNat < s.var.blockBytes) :
    (absorb x s).bufLen.toNat = (s.bufLen.toNat + 1) % s.var.blockBytes := by
  by_cases hc : s.bufLen.toNat + 1 = s.var.blockBytes
  · rw [(absorb_completes hc).2.1, hc, Nat.mod_self]; rfl
  · rw [(absorb_appends (x := x) (s := s) (by omega)).2.1, Nat.mod_eq_of_lt (by omega)]

/-- The bytes of BUF that absorbing does not store to, BUF at B and above among them, keep their values (R35, R101). -/
theorem absorbAll_buf_frame (xs : List Byte) (s : State) (h : s.bufLen.toNat < s.var.blockBytes) (i : Nat)
    (hi : ∀ j, j < xs.length → (s.bufLen.toNat + j) % s.var.blockBytes ≠ i) :
    (absorbAll xs s).buf[i]? = s.buf[i]? := by
  induction xs generalizing s with
  | nil => rfl
  | cons x xs ih =>
    have hb := absorb_bufLen_toNat (x := x) h
    have h0 : s.bufLen.toNat ≠ i := by
      have := hi 0 (by simp)
      rwa [Nat.add_zero, Nat.mod_eq_of_lt h] at this
    rw [absorbAll_cons, ih (absorb x s), absorb_buf]
    · exact Vector.getElem?_setIfInBounds_ne h0
    · rw [hb, absorb_var]; exact Nat.mod_lt _ (blockBytes_pos _)
    · intro j hj
      rw [hb, absorb_var, Nat.mod_add_mod, Nat.add_assoc, Nat.add_comm 1 j]
      exact hi (j + 1) (by simpa using hj)

/-- Byte j of the absorbed bytes stands at BUF[(BUFLEN + j) mod B], unless a later one has overwritten it (R101). -/
theorem absorbAll_buf_stored (xs : List Byte) (s : State) (h : s.bufLen.toNat < s.var.blockBytes) (j : Nat)
    (hj : j < xs.length) (hlast : xs.length ≤ j + s.var.blockBytes) :
    (absorbAll xs s).buf[(s.bufLen.toNat + j) % s.var.blockBytes]? = xs[j]? := by
  have hB := blockBytes_le s.var
  induction xs generalizing s j with
  | nil => simp at hj
  | cons x xs ih =>
    have hb := absorb_bufLen_toNat (x := x) h
    have hlt : (absorb x s).bufLen.toNat < (absorb x s).var.blockBytes := by
      rw [hb, absorb_var]; exact Nat.mod_lt _ (blockBytes_pos _)
    rw [List.length_cons] at hj hlast
    cases j with
    | zero =>
      rw [Nat.add_zero, Nat.mod_eq_of_lt h, absorbAll_cons, absorbAll_buf_frame xs _ hlt, absorb_buf]
      · have : s.bufLen.toNat < 128 := by omega
        simp [this]
      · intro k hk hkeq
        rw [hb, absorb_var, Nat.mod_add_mod] at hkeq
        rcases Nat.lt_or_ge (s.bufLen.toNat + 1 + k) s.var.blockBytes with hl | hl
        · rw [Nat.mod_eq_of_lt hl] at hkeq; omega
        · rw [Nat.mod_eq_sub_mod hl, Nat.mod_eq_of_lt (by omega)] at hkeq; omega
    | succ j =>
      have := ih (absorb x s) hlt j (by omega) (by simp only [absorb_var]; omega) (by simpa using hB)
      rw [hb, absorb_var, Nat.mod_add_mod, Nat.add_assoc, Nat.add_comm 1 j] at this
      simpa using this

/-! ### Blocks of a longer sequence -/

/-- Compressing j + k blocks is compressing j, then the next k. -/
theorem compressBlocks_add (v : Variant) (j k : Nat) (cells : Vector Cell 8) (xs : List Byte) :
    compressBlocks v (j + k) cells xs =
      compressBlocks v k (compressBlocks v j cells xs) (xs.drop (j * v.blockBytes)) := by
  induction j generalizing cells xs with
  | zero => simp [compressBlocks]
  | succ j ih =>
    rw [show j + 1 + k = (j + k) + 1 by omega, compressBlocks, ih, compressBlocks, List.drop_drop]
    congr 2
    rw [Nat.succ_mul]
    omega

/-- Bytes after the compressed blocks do not matter. -/
theorem compressBlocks_append (v : Variant) (j : Nat) (cells : Vector Cell 8) (xs ys : List Byte)
    (h : j * v.blockBytes ≤ xs.length) : compressBlocks v j cells (xs ++ ys) = compressBlocks v j cells xs := by
  induction j generalizing cells xs with
  | zero => rfl
  | succ j ih =>
    rw [Nat.succ_mul] at h
    rw [compressBlocks, compressBlocks, List.take_append_of_le_length (by omega),
      List.drop_append_of_le_length (by omega), ih]
    simp
    omega

/-- In an ACTIVE state that meets the invariant the buffer is not full (R36). -/
theorem State.Inv.bufLen_lt {s : State} (h : s.Inv) (ha : s.status = .active) :
    s.bufLen.toNat < s.var.blockBytes := by
  rw [(h.buffer ha).2]
  exact Nat.mod_lt _ (blockBytes_pos _)

end Sys2Proof.Machine
end

