-- ==== Sys2Proof/Laws/Padding.lean ====
section
/-! SUPPORT. The padding encoder (spec/41_padding.md R130, R131): the length of the tail, and what absorbing it does. -/

namespace Sys2Proof.Machine

@[simp] theorem pad_length (v : Variant) (r L : Nat) :
    (pad v r L).length = 1 + padZeros v r + v.lenBytes := by
  simp [pad]; omega

/-- The closed form of k in the two cases (R131, R133). -/
theorem padZeros_eq (v : Variant) (r : Nat) (h : r < v.blockBytes) :
    padZeros v r = if r + 1 + v.lenBytes ≤ v.blockBytes then v.blockBytes - r - 1 - v.lenBytes
      else 2 * v.blockBytes - r - 1 - v.lenBytes := by
  have key : ∀ B Lb : Nat, 1 + Lb ≤ B → r < B → (B - (r + 1 + Lb) % B) % B =
      if r + 1 + Lb ≤ B then B - r - 1 - Lb else 2 * B - r - 1 - Lb := by
    intro B Lb hL hr
    split
    · next hle =>
      rcases Nat.lt_or_eq_of_le hle with hlt | heq
      · rw [Nat.mod_eq_of_lt hlt, Nat.mod_eq_of_lt (by omega)]; omega
      · rw [heq, Nat.mod_self, Nat.sub_zero, Nat.mod_self]; omega
    · next hgt =>
      have hm : (r + 1 + Lb) % B = r + 1 + Lb - B := by
        rw [Nat.mod_eq_sub_mod (by omega), Nat.mod_eq_of_lt (by omega)]
      rw [hm, Nat.mod_eq_of_lt (by omega)]; omega
  exact key _ _ (by cases v <;> decide) h

/-- Partial block and tail are whole blocks: one or two (R131). -/
theorem pad_blocks (v : Variant) (r L : Nat) (h : r < v.blockBytes) :
    r + (pad v r L).length =
      if r + 1 + v.lenBytes ≤ v.blockBytes then v.blockBytes else 2 * v.blockBytes := by
  rw [pad_length, padZeros_eq v r h]
  split
  · omega
  · have : 1 + v.lenBytes ≤ v.blockBytes := by cases v <;> decide
    omega

theorem pad_blocks_mod (v : Variant) (r L : Nat) (h : r < v.blockBytes) :
    (r + (pad v r L).length) % v.blockBytes = 0 := by
  rw [pad_blocks v r L h]
  split <;> simp

/-- The buffer and the tail, as the bytes HASH compresses. -/
theorem absorbTail_spec (s : State) (h : s.bufLen.toNat < s.var.blockBytes) :
    (absorbTail s).h = compressBlocks s.var
      ((s.bufLen.toNat + (pad s.var s.bufLen.toNat s.len.toNat).length) / s.var.blockBytes) s.h
      (s.pending ++ pad s.var s.bufLen.toNat s.len.toNat) ∧
    (absorbTail s).bufLen = 0#8 := by
  have hl := pending_length (s := s) (by have := blockBytes_le s.var; omega)
  obtain ⟨hh, hb, -⟩ := absorbAll_consumes (pad s.var s.bufLen.toNat s.len.toNat) s h
  rw [List.length_append, hl] at hh hb
  refine ⟨hh, ?_⟩
  apply BitVec.eq_of_toNat_eq
  rw [absorbTail, hb, pad_blocks_mod s.var _ _ h]
  rfl

@[simp] theorem absorbTail_var (s : State) : (absorbTail s).var = s.var := absorbAll_var _ s
@[simp] theorem absorbTail_status (s : State) : (absorbTail s).status = s.status := absorbAll_status _ s
@[simp] theorem absorbTail_err (s : State) : (absorbTail s).err = s.err := absorbAll_err _ s
@[simp] theorem absorbTail_len (s : State) : (absorbTail s).len = s.len := absorbAll_len _ s
@[simp] theorem absorbTail_stream (s : State) : (absorbTail s).stream = s.stream := absorbAll_stream _ s
@[simp] theorem absorbTail_sent (s : State) : (absorbTail s).sent = s.sent := absorbAll_sent _ s

end Sys2Proof.Machine
end

