-- ==== Sys2Proof/Laws/PerInstr.lean ====
section
/-! SUPPORT. Facts about every command as syntax, one lemma per constructor. Family EncodedLength: a command's bytes are its
4-byte word and its payload (spec/30_encoding.md R86). -/

namespace Sys2Proof.Laws

/-- The encoding of the command is 4 bytes and its payload. -/
def EncodedLength.Statement (i : Instr) : Prop :=
  (encode i).length = 4 + (encodePayload i).length

theorem EncodedLength.init (v : Variant) : EncodedLength.Statement (.init v) := by
  simp [EncodedLength.Statement, encode]

theorem EncodedLength.input (payload : List Byte) : EncodedLength.Statement (.input payload) := by
  simp [EncodedLength.Statement, encode]

theorem EncodedLength.hash : EncodedLength.Statement .hash := by
  simp [EncodedLength.Statement, encode]

end Sys2Proof.Laws
end

