-- ==== Sys2Proof/Laws/Step.lean ====
section
/-! SUPPORT. Everything a command and a step can do, once: the inversion lemmas from which invariants and whole-machine rules
follow. -/

namespace Sys2Proof.Machine

/-- The state after a successful INPUT. -/
def afterInput (payload : List Byte) (s : State) : State :=
  respond okCode [] (absorbAll payload (countBytes payload.length s))

/-- The state after a successful HASH. -/
def afterHash (s : State) : State :=
  respond okCode (formatDigest s.var (absorbTail s).h) { absorbTail s with status := .finalized }

/-- The state after INIT. -/
def afterInit (v : Variant) (s : State) : State :=
  respond okCode []
    { s with var := v, h := ivCells v, bufLen := 0#8, len := 0#128, err := 0x00#8, status := .active }

theorem exec_init (v : Variant) (s : State) : exec (.init v) s = .next (afterInit v s) := rfl

theorem exec_input_inactive {s : State} (p : List Byte) (h : s.status ≠ .active) :
    exec (.input p) s = .next (raiseError .invalidEngineState s) := by
  simp [exec, execInput, gateOpen, h]

theorem exec_input_overflow {s : State} {p : List Byte} (h : s.status = .active)
    (hl : s.var.lmax < s.len.toNat + 8 * p.length) :
    exec (.input p) s = .next (raiseError .lengthOverflow s) := by
  simp [exec, execInput, gateOpen, lengthOverflows, h, hl]

theorem exec_input_ok {s : State} {p : List Byte} (h : s.status = .active)
    (hl : s.len.toNat + 8 * p.length ≤ s.var.lmax) :
    exec (.input p) s = .next (afterInput p s) := by
  have : ¬ s.var.lmax < s.len.toNat + 8 * p.length := by omega
  simp [exec, execInput, gateOpen, lengthOverflows, h, this, afterInput]

theorem exec_hash_inactive {s : State} (h : s.status ≠ .active) :
    exec .hash s = .next (raiseError .invalidEngineState s) := by
  simp [exec, execHash, gateOpen, h]

theorem exec_hash_ok {s : State} (h : s.status = .active) : exec .hash s = .next (afterHash s) := by
  simp [exec, execHash, gateOpen, h, afterHash]

/-- Every command answers a next state, one of these (R104 to R106, R224). -/
theorem exec_cases (i : Instr) (s : State) : ∃ t, exec i s = .next t ∧
    ((∃ v, i = .init v ∧ t = afterInit v s) ∨
     (∃ p, i = .input p ∧ s.status = .active ∧ s.len.toNat + 8 * p.length ≤ s.var.lmax ∧ t = afterInput p s) ∨
     (i = .hash ∧ s.status = .active ∧ t = afterHash s) ∨
     (∃ e, t = raiseError e s ∧
       ((e = .invalidEngineState ∧ s.status ≠ .active ∧ ∀ v, i ≠ .init v) ∨
        (e = .lengthOverflow ∧ s.status = .active ∧ ∃ p, i = .input p ∧ s.var.lmax < s.len.toNat + 8 * p.length)))) := by
  cases i with
  | init v => exact ⟨_, rfl, .inl ⟨v, rfl, rfl⟩⟩
  | input p =>
    by_cases h : s.status = .active
    · by_cases hl : s.len.toNat + 8 * p.length ≤ s.var.lmax
      · exact ⟨_, exec_input_ok h hl, .inr (.inl ⟨p, rfl, h, hl, rfl⟩)⟩
      · exact ⟨_, exec_input_overflow h (by omega),
          .inr (.inr (.inr ⟨_, rfl, .inr ⟨rfl, h, p, rfl, by omega⟩⟩))⟩
    · exact ⟨_, exec_input_inactive p h, .inr (.inr (.inr ⟨_, rfl, .inl ⟨rfl, h, by simp⟩⟩))⟩
  | hash =>
    by_cases h : s.status = .active
    · exact ⟨_, exec_hash_ok h, .inr (.inr (.inl ⟨rfl, h, rfl⟩))⟩
    · exact ⟨_, exec_hash_inactive h, .inr (.inr (.inr ⟨_, rfl, .inl ⟨rfl, h, by simp⟩⟩))⟩

/-- A step that answers a next state runs a whole command or an illegal word, and consumes exactly its bytes (R100). -/
theorem step_cases {s t : State} (h : step s = .next t) :
    (∃ i rest, fetch s = .command i rest ∧ exec i (consumeTo rest s) = .next t) ∨
    (∃ why rest, fetch s = .illegal why rest ∧ t = execIllegal (consumeTo rest s)) := by
  unfold step at h
  split at h
  · next i rest hf => exact .inl ⟨i, rest, hf, h⟩
  · next why rest hf => cases h; exact .inr ⟨why, rest, hf, rfl⟩
  · cases h
  · cases h

theorem step_command {s : State} {i : Instr} {rest : List Byte} (h : fetch s = .command i rest) :
    step s = exec i (consumeTo rest s) := by
  simp [step, h]

theorem step_illegal {s : State} {why : IllegalReason} {rest : List Byte} (h : fetch s = .illegal why rest) :
    step s = .next (execIllegal (consumeTo rest s)) := by
  simp [step, h]

/-! ### Runs -/

theorem run_zero (s : State) : Host.Core.run core 0 s = .next s := rfl

theorem run_next {s t : State} (k : Nat) (h : step s = .next t) :
    Host.Core.run core (k + 1) s = Host.Core.run core k t := by
  have h' : core.step s = .next t := h
  simp only [Host.Core.run, h']

theorem run_fault {s : State} {r : Fault} (k : Nat) (h : step s = .fault r) :
    Host.Core.run core (k + 1) s = .fault r := by
  have h' : core.step s = .fault r := h
  simp only [Host.Core.run, h']

end Sys2Proof.Machine
end

