-- ==== Sys2Proof/Tests/Slice0.lean ====
section
/-! SUPPORT. The model's own tests: one step each, expected values from the spec's test vectors (spec/95_test_vectors.md) or its
rules, and for every statement with hypotheses a witness that meets them. -/

namespace Sys2Proof.Tests

open Sys2Proof Sys2Proof.Machine

/-! ## Small states -/

/-- An ACTIVE instance with H = IV, an all-zero BUF and the given LEN; BUFLEN as R38 says. -/
def activeZeros (v : Variant) (len : Nat) : State :=
  { State.reset with
    var := v, status := .active, h := ivCells v, len := BitVec.ofNat 128 len,
    bufLen := BitVec.ofNat 8 (len / 8 % v.blockBytes) }

/-- An ACTIVE instance with "abc" pending and H = IV (PRG-1 after command 2). -/
def activeAbc (v : Variant) : State :=
  { activeZeros v 24 with buf := ((Vector.replicate 128 0#8).set 0 0x61#8).set 1 0x62#8 |>.set 2 0x63#8 }

/-- A FAULTED instance with the given ERR. -/
def faulted (e : BitVec 8) : State := { State.reset with status := .faulted, err := e }

/-- STATUS, ERR, BUFLEN, LEN, and the bytes of all responses. -/
structure Summary where
  status : Lifecycle
  err : BitVec 8
  bufLen : Nat
  len : Nat
  observed : List Byte
deriving DecidableEq, Repr

/-- What an outcome leaves of the registers. -/
def summary : Host.Outcome State Fault Refusal → Option Summary
  | .next t => some ⟨t.status, t.err, t.bufLen.toNat, t.len.toNat, t.observed⟩
  | .fault _ => none
  | .refused _ => none

/-- H after an outcome, as numbers. -/
def hashState : Host.Outcome State Fault Refusal → Option (List Nat)
  | .next t => some (t.h.toList.map BitVec.toNat)
  | .fault _ => none
  | .refused _ => none

/-- The digest of the last response, as one number. -/
def lastDigest : Host.Outcome State Fault Refusal → Option Nat
  | .next t => t.sent.getLast?.map (fun r => beWord r.digest)
  | .fault _ => none
  | .refused _ => none

/-! ## Well-formedness: the one check refuses an ill-formed term -/

/-- N is 28 bits (R83): 2^28 bytes are too many. -/
theorem test_input_too_long_is_ill_formed : (Instr.input (List.replicate (2 ^ 28) 0#8)).wellFormed = false := by
  simp only [Instr.wellFormed, List.length_replicate]; decide

/-- NMAX = 2^28 - 1 bytes are the most (R12). -/
theorem test_input_of_nmax_is_well_formed : (Instr.input (List.replicate (2 ^ 28 - 1) 0#8)).wellFormed = true := by
  simp only [Instr.wellFormed, List.length_replicate]; decide

/-- R3's string, its curly brackets (code points 123 and 125) at positions 31 and 63. -/
theorem test_identity :
    Config.identity.toList = "SHA2-ENGINE/nlanson-btc-hashes/".toList ++
      [Char.ofNat 123] ++ "SHA-224,SHA-256,SHA-384,SHA-512".toList ++ [Char.ofNat 125] ∧
    (Config.identity.toList.getD 31 'x').toNat = 123 ∧ (Config.identity.toList.getD 63 'x').toNat = 125 := by decide

/-! ## Decoding: V-DEC-1 to V-DEC-15, bit by bit from R81 to R84 -/

theorem test_decode_init :
    [decodeWord 0b0001_00000000000000000000000000_00#32, decodeWord 0b0001_00000000000000000000000000_01#32,
     decodeWord 0b0001_00000000000000000000000000_10#32, decodeWord 0b0001_00000000000000000000000000_11#32] =
    [.init .sha224, .init .sha256, .init .sha384, .init .sha512] := by decide

theorem test_decode_input :
    [decodeWord 0b0010_0000000000000000000000000000#32, decodeWord 0b0010_0000000000000000000000000011#32,
     decodeWord 0b0010_0000000000000000000001000000#32, decodeWord 0b0010_1111111111111111111111111111#32] =
    [.input 0#28, .input 3#28, .input 64#28, .input 268435455#28] := by decide

theorem test_decode_hash : decodeWord 0b0011_0000000000000000000000000000#32 = .hash := by decide

theorem test_decode_illegal :
    [decodeWord 0x10000004#32, decodeWord 0x18000001#32, decodeWord 0x30000001#32, decodeWord 0x00000000#32,
     decodeWord 0x40000000#32, decodeWord 0xF0000003#32] =
    [.illegal .initReservedBits, .illegal .initReservedBits, .illegal .hashReservedBits, .illegal .unknownOp,
     .illegal .unknownOp, .illegal .unknownOp] := by decide

/-- PRG-1: 20000003 616263, then the HASH word, byte by byte. -/
theorem test_decode_stream :
    decodeStream [0x20#8, 0#8, 0#8, 3#8, 0x61#8, 0x62#8, 0x63#8, 0x30#8, 0#8, 0#8, 0#8] =
      .command (.input [0x61#8, 0x62#8, 0x63#8]) [0x30#8, 0#8, 0#8, 0#8] := by decide

/-- PRG-1: the encodings 10000001, 20000003 616263, 30000000. -/
theorem test_encode :
    encode (.init .sha256) = [0x10#8, 0#8, 0#8, 1#8] ∧
    encode (.input [0x61#8, 0x62#8, 0x63#8]) = [0x20#8, 0#8, 0#8, 3#8, 0x61#8, 0x62#8, 0x63#8] ∧
    encode .hash = [0x30#8, 0#8, 0#8, 0#8] := by decide

/-- The whole stream of PRG-1 from its assembler lines (R91). -/
theorem test_assemble :
    assembleAll [.init .sha256, .inputText "abc", .hash] =
      some [0x10#8, 0#8, 0#8, 1#8, 0x20#8, 0#8, 0#8, 3#8, 0x61#8, 0x62#8, 0x63#8, 0x30#8, 0#8, 0#8, 0#8] ∧
    assemble (.inputHex "3c3D") = some [0x20#8, 0#8, 0#8, 2#8, 0x3c#8, 0x3d#8] ∧
    assemble (.word 0x50000000#32) = some [0x50#8, 0#8, 0#8, 0#8] ∧
    assemble (.digest .sha384 []) = some [0x10#8, 0#8, 0#8, 2#8, 0x20#8, 0#8, 0#8, 0#8, 0x30#8, 0#8, 0#8, 0#8] := by
  decide +kernel

/-! ## One step per command -/

/-- V-ERR-12: INIT SHA-384 on a FAULTED instance; H = IV_384 (R196). -/
theorem test_init_recovers :
    summary (execInit .sha384 (faulted 1#8)) = some ⟨.active, 0#8, 0, 0, [0#8]⟩ ∧
    hashState (execInit .sha384 (faulted 1#8)) = some
      [0xcbbb9d5dc1059ed8, 0x629a292a367cd507, 0x9159015a3070dd17, 0x152fecd8f70e5939,
       0x67332667ffc00b31, 0x8eb44a8768581511, 0xdb0c2e0d64f98fa7, 0x47b5481dbefa4fa4] := by decide +kernel

/-- V-ERR-5 and V-ERR-8: the length check at its border. -/
theorem test_input_length_border :
    summary (execInput [0#8] (activeZeros .sha256 (2 ^ 64 - 8))) = some ⟨.faulted, 1#8, 63, 2 ^ 64 - 8, [1#8]⟩ ∧
    summary (execInput [0#8] (activeZeros .sha256 (2 ^ 64 - 16))) = some ⟨.active, 0#8, 63, 2 ^ 64 - 8, [0#8]⟩ := by
  decide +kernel

/-- PRG-3 command 3: 3c 3d 3e 3f complete the SHA-224 block 00 01 .. 3f, which is compressed. -/
theorem test_input_completes_a_block :
    hashState (execInput [0x3c#8, 0x3d#8, 0x3e#8, 0x3f#8]
      { activeZeros .sha224 480 with buf := Vector.ofFn (fun i : Fin 128 => BitVec.ofNat 8 i.val) }) = some
      [0x13bf6865, 0x91bf9b4c, 0xc1abc852, 0x6a31ca41, 0x09e218a5, 0x93731b39, 0xb1e41421, 0x033752db] := by
  decide +kernel

/-- V-DIG-6 and V-DIG-10: HASH with "abc" pending, in SHA-256 and SHA-384. -/
theorem test_hash_abc :
    lastDigest (execHash (activeAbc .sha256)) =
      some 0xba7816bf8f01cfea414140de5dae2223b00361a396177a9cb410ff61f20015ad ∧
    lastDigest (execHash (activeAbc .sha384)) =
      some 0xcb00753f45a35e8bb5a03d699ac65007272c32ab0eded1631a8b605a43ff5bed8086072ba1e7cc2358baeca134c825a7 := by
  decide +kernel

/-- V-LIM-2: HASH at the length limit of SHA-512, a tail of two blocks. -/
theorem test_hash_at_the_length_limit :
    lastDigest (execHash (activeZeros .sha512 (2 ^ 128 - 8))) =
      some 0x0240a3ecadfdbdabac65670452db91fb07630bc40c4a9215d23bd954748ad5a421cf7efef7a911f277fa9a723409cc2b94a61bc089d4795d0d9b8e3c3a714fd0 := by
  decide +kernel

/-- V-ERR-11: an illegal word on a FAULTED instance answers 03 and keeps the first error. -/
theorem test_illegal_keeps_the_first_error :
    summary (step { faulted 2#8 with stream := [0x10#8, 0#8, 0#8, 4#8] }) = some ⟨.faulted, 2#8, 0, 0, [3#8]⟩ := by
  decide +kernel

/-- V-ERR-1 and V-ERR-2: INPUT and HASH right after reset. -/
theorem test_commands_before_init :
    summary (execInput [0x61#8, 0x62#8, 0x63#8] State.reset) = some ⟨.faulted, 2#8, 0, 0, [2#8]⟩ ∧
    summary (execHash State.reset) = some ⟨.faulted, 2#8, 0, 0, [2#8]⟩ := by decide +kernel

/-! ## The blocks the commands use -/

/-- V-ROT-1 to V-ROT-9. -/
theorem test_rotr_shr :
    rotr 1 0x00000001#32 = 0x80000000#32 ∧ rotr 31 0x80000000#32 = 1#32 ∧ rotr 8 0x12345678#32 = 0x78123456#32 ∧
    shr 3 0x80000000#32 = 0x10000000#32 ∧ shr 10 0xffffffff#32 = 0x003fffff#32 ∧
    rotr 1 1#64 = 0x8000000000000000#64 ∧ rotr 4 0x0123456789abcdef#64 = 0xf0123456789abcde#64 ∧
    shr 63 0x8000000000000000#64 = 1#64 ∧ shr 7 0xffffffffffffffff#64 = 0x01ffffffffffffff#64 := by decide

/-- V-SIG-5, -10, -15, -20. -/
theorem test_small_sigma :
    smallSigma0w32 0x12345678#32 = 0xe7fce6ee#32 ∧ smallSigma1w32 0x12345678#32 = 0xa1f78649#32 ∧
    smallSigma0w64 0x0123456789abcdef#64 = 0x6f92c77c6c4f1aa1#64 ∧
    smallSigma1w64 0x0123456789abcdef#64 = 0x70a3460dbbd4317a#64 := by decide

/-- V-SUM-5, -10, -15, -20. -/
theorem test_big_sigma :
    bigSigma0w32 0x12345678#32 = 0x66146474#32 ∧ bigSigma1w32 0x12345678#32 = 0x3561abda#32 ∧
    bigSigma0w64 0x0123456789abcdef#64 = 0xb7c57a100c7ec1ab#64 ∧
    bigSigma1w64 0x0123456789abcdef#64 = 0x7703112333475567#64 := by decide

/-- V-CHM-1 to V-CHM-3 and V-CHM-7. -/
theorem test_ch_maj :
    ch 0xffffffff#32 0x12345678#32 0x9abcdef0#32 = 0x12345678#32 ∧ maj 0xffffffff#32 0x12345678#32 0x9abcdef0#32 = 0x9abcdef8#32 ∧
    ch 0#32 0x12345678#32 0x9abcdef0#32 = 0x9abcdef0#32 ∧ maj 0#32 0x12345678#32 0x9abcdef0#32 = 0x12345670#32 ∧
    ch 0xf0f0f0f0#32 0xaaaaaaaa#32 0x55555555#32 = 0xa5a5a5a5#32 ∧
    ch 0xff00ff00ff00ff00#64 0x0123456789abcdef#64 0xfedcba9876543210#64 = 0x01dc45988954cd10#64 := by decide

/-- V-PAD-3, -4, -9, -10: the tail's length at the border of one and two blocks; V-PAD-2: its bytes. -/
theorem test_pad :
    (pad .sha256 55 440).length = 9 ∧ (pad .sha256 56 448).length = 72 ∧
    (pad .sha512 111 888).length = 17 ∧ (pad .sha512 112 896).length = 144 ∧
    pad .sha224 1 8 = [0x80#8] ++ List.replicate 54 0#8 ++ [0#8, 0#8, 0#8, 0#8, 0#8, 0#8, 0#8, 8#8] := by decide +kernel

/-- V-SCH-2: the schedule of the all-0xFF SHA-256 block; V-SCH-4: W[16], W[17], W[18] and W[79] of the SHA-512 block of "abc". -/
theorem test_schedule :
    (schedule .w32 (List.replicate 64 0xff#8)).getD 16 0 = 0x203ffffc ∧
    (schedule .w32 (List.replicate 64 0xff#8)).getD 63 0 = 0x4bceaf09 ∧
    (schedule .w64 ([0x61#8, 0x62#8, 0x63#8] ++ pad .sha512 3 24)).getD 18 0 = 0x0a9699a24c700003 ∧
    (schedule .w64 ([0x61#8, 0x62#8, 0x63#8] ++ pad .sha512 3 24)).getD 79 0 = 0x92aeeed1a7bcf7d2 := by decide +kernel

/-- V-RND-1, t = 0: one SHA-256 round on "abc" from IV_256. -/
theorem test_round :
    (fun x : Work 32 => [x.a, x.b, x.c, x.d, x.e, x.f, x.g, x.h].map BitVec.toNat)
      (Machine.round .w32 (loadWork (ivWords .sha256)) (0x61626380#32 : BitVec 32) ((kWords .w32).getD 0 0)) =
      [0x5d6aebcd, 0x6a09e667, 0xbb67ae85, 0x3c6ef372, 0xfa2a4622, 0x510e527f, 0x9b05688c, 0x1f83d9ab] := by decide +kernel

/-- V-CMP-7: all eight words 0xffffffff, a block of 0xff: every addition wraps. -/
theorem test_compress_wraps :
    (compressCells .sha256 (Vector.replicate 8 0xffffffff#64) (List.replicate 64 0xff#8)).toList.map BitVec.toNat =
      [0x0598127a, 0xaf11706e, 0x77401fff, 0xd730c549, 0x0b84c867, 0xa98c6ca3, 0xd7f3c0f9, 0x06a78b79] := by decide +kernel

/-! ## Witnesses: for every statement with hypotheses, states and operands that meet them, at the borders of each clause -/

/-- An UNINIT instance whose unspecified registers hold other values than reset's. -/
def otherUninit : State :=
  { State.reset with var := .sha512, h := Vector.replicate 8 (-1), buf := Vector.replicate 128 0xff#8, bufLen := 200#8, len := -1 }

theorem witness_UnspecifiedResetValuesAreNeverObserved :
    State.reset.status = .uninit ∧ otherUninit.status = .uninit ∧ State.reset.err = otherUninit.err ∧
    State.reset.stream = otherUninit.stream ∧ State.reset.sent = otherUninit.sent ∧ State.reset.h ≠ otherUninit.h := by
  decide

/-- Two ACTIVE states that differ in BUF[3], the first byte at BUFLEN, and in BUF[127]. -/
theorem witness_UnreadRegistersStayUnread :
    { activeAbc .sha256 with stream := encode .hash }.SameToHost
      { activeAbc .sha256 with buf := ((activeAbc .sha256).buf.set 3 0xff#8).set 127 0xff#8, stream := encode .hash } ∧
    (step { activeAbc .sha256 with stream := encode .hash } matches .next _) = true ∧
    State.reset.SameToHost otherUninit ∧ (step State.reset matches .fault .awaitingWord) = true :=
  ⟨⟨rfl, rfl, rfl, rfl, by decide⟩, by decide +kernel, ⟨rfl, rfl, rfl, rfl, by decide⟩, by decide +kernel⟩

theorem witness_DecodeOfEncodeGivesTheCommand :
    (Instr.init .sha512).wellFormed = true ∧ Instr.hash.wellFormed = true ∧ (Instr.input []).wellFormed = true ∧
    (Instr.input (List.replicate (2 ^ 28 - 1) 0#8)).wellFormed = true :=
  ⟨rfl, rfl, rfl, test_input_of_nmax_is_well_formed⟩

theorem witness_OnlyItsEncodingDecodesToACommand :
    decodeStream [0x20#8, 0#8, 0#8, 1#8, 0x61#8, 0xff#8] = .command (.input [0x61#8]) [0xff#8] := by decide

theorem witness_WordsDecodeByMatchAndMask :
    decodeWord 0x10000003#32 = .init .sha512 ∧ decodeWord 0x2FFFFFFF#32 = .input 0xFFFFFFF#28 := by decide

/-- A command without payload, one of zeros, and one whose payload byte stands in the table's bits [39:32]. -/
theorem witness_PlacedTableWordRuns :
    decodeTableWord 32 0x10000003 = some (.init .sha512) ∧ decodeTableWord 32 0x30000000 = some .hash ∧
    decodeTableWord 32 0x20000002 = some (.input [0#8, 0#8]) ∧
    decodeTableWord 40 0x6120000001 = some (.input [0x61#8]) ∧ decodeTableWord 32 0x30000001 = none := by decide +kernel

/-- The longest data of one INPUT, and a chunk of the empty data's expansion. -/
theorem witness_PseudoCommandsExpand :
    (List.replicate (2 ^ 28 - 1) 0#8).length ≤ 2 ^ 28 - 1 ∧ ([] : List Byte) ∈ [([] : List Byte)] :=
  ⟨by rw [List.length_replicate], by decide⟩

theorem witness_StepExecutesTheDecodedCommand :
    decodeStream { State.reset with stream := [0x30#8, 0#8, 0#8, 0#8, 0xff#8] }.stream = .command .hash [0xff#8] := by decide

theorem witness_IllegalWordRaisesIllegalCommand :
    { State.reset with stream := [0xF0#8, 0#8, 0#8, 3#8, 0x61#8] }.stream = beBytes 4 (0xF0000003#32).toNat ++ [0x61#8] ∧
    decodeWord 0xF0000003#32 = .illegal .unknownOp := by decide

/-- Both stuck situations one byte short of complete, and the byte that completes them. -/
theorem witness_IncompleteCommandWaitsForItsRest :
    ([0x30#8, 0#8, 0#8] : List Byte).length < 4 ∧
    decodeWord 0x20000002#32 = .input 2#28 ∧ ([0x61#8] : List Byte).length < (2#28).toNat ∧
    (Instr.input [0x61#8, 0x62#8]).wellFormed = true ∧ ([0x62#8] : List Byte) ≠ [] ∧
    encode (.input [0x61#8, 0x62#8]) =
      { State.reset with stream := [0x20#8, 0#8, 0#8, 2#8, 0x61#8] }.stream ++ [0x62#8] := by decide

/-- A state with the bytes of one command at the head of the stream. -/
def about (i : Instr) (s : State) : State := { s with stream := encode i }

/-- Whether a step answers a next state. -/
def steps (s : State) : Bool := step s matches .next _

/-- A successful HASH, a HASH that fails, an INIT. -/
theorem witness_EachStepSendsExactlyOneResponse :
    steps (about .hash (activeAbc .sha224)) = true ∧ steps (about .hash State.reset) = true ∧
    steps (about (.init .sha512) State.reset) = true ∧ decodeStream (about .hash State.reset).stream = .command .hash [] := by
  decide +kernel

/-- One step for each kind of move. -/
theorem witness_LifecycleMoves :
    steps (about (.init .sha512) State.reset) = true ∧ steps (about .hash (activeAbc .sha224)) = true ∧
    steps (about (.input []) (activeAbc .sha224)) = true ∧ steps (about (.input []) State.reset) = true := by decide +kernel

theorem witness_OnlyInitWritesVarAndHashKeepsLen :
    steps (about .hash (activeAbc .sha224)) = true ∧
    (∀ v rest, decodeStream (about .hash (activeAbc .sha224)).stream ≠ .command (.init v) rest) ∧
    (∀ p rest, decodeStream (about .hash (activeAbc .sha224)).stream ≠ .command (.input p) rest) := by
  refine ⟨by decide +kernel, fun v rest h => ?_, fun p rest h => ?_⟩
  all_goals rw [show decodeStream (about .hash (activeAbc .sha224)).stream = .command .hash [] by decide +kernel] at h; cases h

theorem witness_FaultedInstanceStaysFaulted :
    (faulted 1#8).status = .faulted ∧
    decodeStream (about .hash (faulted 1#8)).stream = .command .hash [] ∧ (∀ v, Instr.hash ≠ .init v) ∧
    decodeStream { faulted 1#8 with stream := [0#8, 0#8, 0#8, 0#8] }.stream = .illegal .unknownOp [] ∧
    decodeStream (about (.init .sha384) (faulted 1#8)).stream = .command (.init .sha384) [] :=
  ⟨rfl, by decide, (fun _ h => nomatch h), by decide, by decide⟩

/-- The invariant at both length limits, with the buffer one byte from full. -/
theorem inv_at_the_limit : (activeZeros .sha256 (2 ^ 64 - 8)).Inv ∧ (activeZeros .sha512 (2 ^ 128 - 8)).Inv :=
  ⟨⟨by decide +kernel, by decide +kernel, by decide +kernel⟩, ⟨by decide +kernel, by decide +kernel, by decide +kernel⟩⟩

theorem witness_InvariantKeptByEveryStep :
    (about .hash (activeZeros .sha512 (2 ^ 128 - 8))).Inv ∧ steps (about .hash (activeZeros .sha512 (2 ^ 128 - 8))) = true :=
  ⟨⟨by decide +kernel, by decide +kernel, by decide +kernel⟩, by decide +kernel⟩

theorem witness_InitDiscardsAllEarlierState :
    (faulted 3#8).stream = (activeAbc .sha384).stream ∧ (faulted 3#8).sent = (activeAbc .sha384).sent := by decide

/-- The last byte that fits, LEN + 8 = 2^64 - 8; no byte; and a payload that completes a block (SHA-224, BUFLEN = 60). -/
theorem witness_InputConsumesEveryFullBlock :
    (activeZeros .sha256 (2 ^ 64 - 16)).Inv ∧ (activeZeros .sha256 (2 ^ 64 - 16)).status = .active ∧
    (activeZeros .sha256 (2 ^ 64 - 16)).len.toNat + 8 * [0#8].length ≤ (activeZeros .sha256 (2 ^ 64 - 16)).var.lmax ∧
    (activeZeros .sha512 (2 ^ 128 - 8)).len.toNat + 8 * ([] : List Byte).length ≤ (activeZeros .sha512 (2 ^ 128 - 8)).var.lmax ∧
    (activeZeros .sha224 480).Inv ∧ (activeZeros .sha224 480).bufLen.toNat + [0#8, 0#8, 0#8, 0#8].length =
      (activeZeros .sha224 480).var.blockBytes :=
  ⟨⟨by decide +kernel, by decide +kernel, by decide +kernel⟩, rfl, by decide, by decide,
    ⟨by decide +kernel, by decide +kernel, by decide +kernel⟩, by decide⟩

/-- With BUFLEN = 60 and five bytes, byte 4 goes to BUF[0]; BUF[5] and BUF[64] get none. -/
theorem witness_InputWritesOnlyTheBufferBytesItStores :
    (activeZeros .sha224 480).Inv ∧ (activeZeros .sha224 480).status = .active ∧
    (activeZeros .sha224 480).len.toNat + 8 * [1#8, 2#8, 3#8, 4#8, 5#8].length ≤ (activeZeros .sha224 480).var.lmax ∧
    ((activeZeros .sha224 480).bufLen.toNat + 4) % (activeZeros .sha224 480).var.blockBytes = 0 ∧
    (∀ j, j < [1#8, 2#8, 3#8, 4#8, 5#8].length →
      ((activeZeros .sha224 480).bufLen.toNat + j) % (activeZeros .sha224 480).var.blockBytes ≠ 5) ∧
    (∀ j, j < [1#8, 2#8, 3#8, 4#8, 5#8].length →
      ((activeZeros .sha224 480).bufLen.toNat + j) % (activeZeros .sha224 480).var.blockBytes ≠ 64) :=
  ⟨⟨by decide +kernel, by decide +kernel, by decide +kernel⟩, rfl, by decide, by decide, by decide, by decide⟩

/-- V-ERR-6 and V-ERR-4. -/
theorem witness_ZeroLengthInputChangesNothing :
    (activeZeros .sha256 (2 ^ 64 - 8)).Inv ∧ (activeZeros .sha256 (2 ^ 64 - 8)).status = .active ∧
    { activeAbc .sha256 with status := .finalized }.Inv ∧ { activeAbc .sha256 with status := .finalized }.status ≠ .active :=
  ⟨inv_at_the_limit.1, rfl, ⟨by decide +kernel, by decide +kernel, by decide +kernel⟩, by decide⟩

/-- V-ERR-5 and V-ERR-7. -/
theorem witness_OverlongInputRaisesLengthOverflow :
    (activeZeros .sha256 (2 ^ 64 - 8)).status = .active ∧
    (activeZeros .sha256 (2 ^ 64 - 8)).len.toNat + 8 * [0#8].length > 2 ^ 64 - 1 ∧
    (activeZeros .sha512 (2 ^ 128 - 8)).len.toNat + 8 * [0#8].length > 2 ^ 128 - 1 ∧
    (execHash (activeAbc .sha256) matches .next _) = true := by decide +kernel

/-- A sum that just fits, one that just does not, and two chunkings of one message. -/
theorem witness_StreamingEquivalence :
    (activeZeros .sha256 (2 ^ 64 - 24)).status = .active ∧
    (activeZeros .sha256 (2 ^ 64 - 24)).len.toNat + 8 * ([1#8].length + [2#8].length) ≤
      (activeZeros .sha256 (2 ^ 64 - 24)).var.lmax ∧
    (activeZeros .sha256 (2 ^ 64 - 24)).var.lmax <
      (activeZeros .sha256 (2 ^ 64 - 24)).len.toNat + 8 * ([1#8].length + [2#8, 3#8].length) ∧
    [[0x61#8, 0x62#8, 0x63#8]].flatten = [[0x61#8], [], [0x62#8], [0x63#8]].flatten := by decide

/-- V-LIM-1 and V-LIM-2: two-block tails in both families. -/
theorem witness_HashCompressesTheTailAndSendsTheDigest :
    (activeZeros .sha256 (2 ^ 64 - 8)).Inv ∧ (activeZeros .sha256 (2 ^ 64 - 8)).status = .active ∧
    (activeZeros .sha512 (2 ^ 128 - 8)).Inv ∧ (activeZeros .sha512 (2 ^ 128 - 8)).status = .active :=
  ⟨inv_at_the_limit.1, rfl, inv_at_the_limit.2, rfl⟩

/-- With BUFLEN = 56 the tail is 72 bytes: byte 71 stands in BUF[63]; BUF[64] gets none. -/
theorem witness_HashWritesOnlyTheBufferBytesOfTheTail :
    (activeZeros .sha256 448).Inv ∧ (activeZeros .sha256 448).status = .active ∧
    (pad .sha256 56 448).length = 72 ∧ (activeZeros .sha256 448).bufLen.toNat = 56 ∧
    (∀ j, j < (pad .sha256 56 448).length → (56 + j) % 64 ≠ 64) :=
  ⟨⟨by decide +kernel, by decide +kernel, by decide +kernel⟩, rfl, by decide +kernel, by decide, by omega⟩

theorem witness_SecondHashFails :
    (activeAbc .sha384).status = .active ∧ (∀ v, Instr.hash ≠ .init v) ∧ (∀ v, Instr.input [] ≠ .init v) :=
  ⟨rfl, (fun _ h => nomatch h), (fun _ h => nomatch h)⟩

/-- The borders of both clauses: 55 and 56, 111 and 112 pending bytes. -/
theorem witness_HashCompressesOneOrTwoBlocks :
    (activeZeros .sha256 440).Inv ∧ (activeZeros .sha256 440).bufLen.toNat = 55 ∧
    (activeZeros .sha256 448).Inv ∧ (activeZeros .sha256 448).bufLen.toNat = 56 ∧
    (activeZeros .sha384 888).Inv ∧ (activeZeros .sha384 888).bufLen.toNat = 111 ∧
    (activeZeros .sha384 896).Inv ∧ (activeZeros .sha384 896).bufLen.toNat = 112 ∧
    (activeZeros .sha384 896).status = .active :=
  ⟨⟨by decide +kernel, by decide +kernel, by decide +kernel⟩, by decide,
    ⟨by decide +kernel, by decide +kernel, by decide +kernel⟩, by decide,
    ⟨by decide +kernel, by decide +kernel, by decide +kernel⟩, by decide,
    ⟨by decide +kernel, by decide +kernel, by decide +kernel⟩, by decide, rfl⟩

theorem witness_DigestLengthIsFixedByTheVariant : (activeAbc .sha224).status = .active := rfl

/-- The empty message, "abc" in three chunks with bytes after it, and one chunk of NMAX bytes. -/
theorem witness_EngineComputesTheDigestOfAnyChunking :
    8 * ([] : List (List Byte)).flatten.length ≤ Variant.lmax .sha256 ∧
    (∀ c ∈ [[0x61#8, 0x62#8], [], [0x63#8]], c.length ≤ 2 ^ 28 - 1) ∧
    8 * [[0x61#8, 0x62#8], [], [0x63#8]].flatten.length ≤ Variant.lmax .sha512 ∧
    { State.reset with stream := encodeAll (messageCommands .sha512 [[0x61#8, 0x62#8], [], [0x63#8]]) ++ [0xff#8] }.stream =
      encodeAll (messageCommands .sha512 [[0x61#8, 0x62#8], [], [0x63#8]]) ++ [0xff#8] ∧
    (List.replicate (2 ^ 28 - 1) 0#8).length ≤ 2 ^ 28 - 1 :=
  ⟨by decide, by decide, by decide, rfl, by rw [List.length_replicate]⟩

theorem witness_DigestPseudoCommandReturnsTheDigest :
    8 * [0x61#8].length ≤ Variant.lmax .sha224 ∧
    { State.reset with stream := encodeAll (expandDigest .sha224 [0x61#8]) }.stream =
      encodeAll (expandDigest .sha224 [0x61#8]) :=
  ⟨by decide, rfl⟩

theorem witness_CommandsOutsideActiveRaiseInvalidEngineState :
    State.reset.status ≠ .active ∧ { activeAbc .sha256 with status := .finalized }.status ≠ .active ∧
    (faulted 1#8).status ≠ .active ∧ (∀ v, Instr.hash ≠ .init v) ∧ (∀ v, Instr.input [1#8] ≠ .init v) :=
  ⟨by decide, by decide, by decide, (fun _ h => nomatch h), (fun _ h => nomatch h)⟩

/-- V-ERR-10: a second error on a FAULTED instance; and the first error of an ACTIVE one. -/
theorem witness_FaultEntryWritesOnlyErrAndStatus :
    summary (step (about (.input [0x78#8]) (faulted 3#8))) = some ⟨.faulted, 3#8, 0, 0, [2#8]⟩ ∧
    summary (step { activeZeros .sha256 24 with stream := [0x40#8, 0#8, 0#8, 0#8] }) = some ⟨.faulted, 3#8, 3, 24, [3#8]⟩ := by
  decide +kernel

/-- An illegal word on a FINALIZED instance, an INPUT with both later errors (V-ERR-13), and an overlong INPUT in ACTIVE. -/
theorem witness_ErrorPrecedence :
    decodeStream { activeAbc .sha256 with status := .finalized, stream := [0x40#8, 0#8, 0#8, 0#8] }.stream =
      .illegal .unknownOp [] ∧
    { activeZeros .sha256 (2 ^ 64 - 8) with status := .finalized }.status ≠ .active ∧
    (activeZeros .sha256 (2 ^ 64 - 8)).status = .active ∧
    (activeZeros .sha256 (2 ^ 64 - 8)).var.lmax < (activeZeros .sha256 (2 ^ 64 - 8)).len.toNat + 8 * [0#8].length := by decide

/-- The least and the largest r and L of both families. -/
theorem witness_TailIsMarkerFewestZerosAndLength :
    0 < Variant.blockBytes .sha224 ∧ 63 < Variant.blockBytes .sha256 ∧ 127 < Variant.blockBytes .sha512 ∧
    2 ^ 64 - 1 ≤ Variant.lmax .sha256 ∧ 2 ^ 128 - 1 ≤ Variant.lmax .sha512 ∧ 55 < padZeros .sha256 56 := by decide

theorem witness_TailCompletesOneOrTwoBlocks :
    55 + 1 + Variant.lenBytes .sha256 ≤ Variant.blockBytes .sha256 ∧
    Variant.blockBytes .sha256 < 56 + 1 + Variant.lenBytes .sha256 ∧
    111 + 1 + Variant.lenBytes .sha384 ≤ Variant.blockBytes .sha384 ∧
    Variant.blockBytes .sha384 < 112 + 1 + Variant.lenBytes .sha384 ∧
    (activeZeros .sha384 896).bufLen.toNat < (activeZeros .sha384 896).var.blockBytes := by decide

/-- The last byte SHA-224 keeps, and SHA-512's. -/
theorem witness_DigestIsTheLeadingWordsBigEndian :
    (6 : Fin 8).val < Variant.digestWords .sha224 ∧ 3 < (Variant.width .sha224).bytes ∧
    (7 : Fin 8).val < Variant.digestWords .sha512 ∧ 7 < (Variant.width .sha512).bytes := by decide

theorem witness_BigEndianBytesAndWordsAreInverse : 0 < 2 ^ (8 * 0) ∧ 2 ^ 128 - 1 < 2 ^ (8 * 16) ∧ 15 < 16 := by decide

/-- n = 0 for SHR, n = 1 and n = w - 1 for both. -/
theorem witness_ShiftAndRotateFormulas : (0 : Nat) < 32 ∧ (0 : Nat) < 1 ∧ (31 : Nat) < 32 ∧ (63 : Nat) < 64 := by decide

theorem witness_SmallSigmaBitByBit : (0 : Nat) < 32 ∧ (31 : Nat) < 32 ∧ (63 : Nat) < 64 := by decide

theorem witness_BigSigmaBitByBit : (0 : Nat) < 32 ∧ (31 : Nat) < 32 ∧ (63 : Nat) < 64 := by decide

theorem witness_ChChoosesAndMajVotes : (0 : Nat) < 32 ∧ (63 : Nat) < 64 := by decide

theorem witness_BlockParsesIntoBigEndianWords :
    (List.replicate 64 0#8).length = Variant.blockBytes .sha224 ∧ (List.replicate 128 0#8).length = Variant.blockBytes .sha512 ∧
    15 < (parseBlock .w64 (List.replicate 128 0#8)).length := by decide

theorem witness_ScheduleFollowsTheRecurrence :
    15 < 16 ∧ 16 < Width.rounds .w32 ∧ 63 < Width.rounds .w32 ∧ 79 < Width.rounds .w64 := by decide

theorem witness_CompressRunsEveryRoundAndFeedsForward : 0 < Width.rounds .w32 ∧ 79 < Width.rounds .w64 := by decide

theorem witness_ConstantsAreRootsOfPrimes : 63 < 64 ∧ 79 < 80 := by decide

/-- Two instances that both have a step. -/
theorem witness_InstancesAreIndependent :
    0 ≠ 1 ∧ (stepInstance 0 [about .hash (activeAbc .sha256), about (.init .sha384) State.reset]).isSome = true ∧
    (stepInstance 1 [about .hash (activeAbc .sha256), about (.init .sha384) State.reset]).isSome = true := by decide +kernel

end Sys2Proof.Tests
end

section
/-! SUPPORT and PROOFS. Byte order and word operators (spec/00_scope.md R14, R15), the functions built from the operators, and
the logic that variants of one word width share (R191, R201). -/

namespace Sys2Proof.Machine

/-! ## Byte order (R15) -/

/-- Settles O43, from the inverse laws of byte order. -/
theorem bigEndianBytesAndWordsAreInverse : Obligations.BigEndianBytesAndWordsAreInverse := by
  refine ⟨fun n v hv => ⟨beBytes_length n v, beWord_beBytes (by rwa [pow256]), fun i hi => ?_⟩, beBytes_beWord⟩
  rw [beBytes_getElem? n v i hi, Nat.shiftRight_eq_div_pow]

/-! ## SHR and ROTR (R14) -/

theorem shr_toNat {w : Nat} (n : Nat) (x : BitVec w) : (shr n x).toNat = x.toNat / 2 ^ n := by
  rw [shr, BitVec.toNat_ushiftRight, Nat.shiftRight_eq_div_pow]

/-- The bits SHR brings in from above are zero. -/
theorem shr_getLsbD {w : Nat} (n : Nat) (x : BitVec w) (i : Nat) :
    (shr n x).getLsbD i = (decide (i + n < w) && x.getLsbD (i + n)) := by
  rw [shr, BitVec.getLsbD_ushiftRight, Nat.add_comm n i]
  by_cases h : i + n < w
  · simp [h]
  · simp [h, BitVec.getLsbD_of_ge x (i + n) (by omega)]

theorem rotr_toNat {w : Nat} (n : Nat) (x : BitVec w) :
    (rotr n x).toNat = x.toNat / 2 ^ n ||| x.toNat * 2 ^ (w - n) % 2 ^ w := by
  rw [rotr, BitVec.toNat_or, shr_toNat, BitVec.toNat_shiftLeft, Nat.shiftLeft_eq]

/-- The model's ROTR is the library's rotation wherever R14 defines it. -/
theorem rotr_eq_rotateRight {w n : Nat} (x : BitVec w) (hn : n < w) : rotr n x = x.rotateRight n := by
  rw [BitVec.rotateRight_def, Nat.mod_eq_of_lt hn, rotr, shr]

/-- Bit i of ROTR(n, x) is bit (i + n) mod w of x. -/
theorem rotr_getLsbD {w n i : Nat} (x : BitVec w) (hn : n < w) (hi : i < w) :
    (rotr n x).getLsbD i = x.getLsbD ((i + n) % w) := by
  rw [rotr_eq_rotateRight x hn, BitVec.getLsbD_rotateRight, Nat.mod_eq_of_lt hn]
  by_cases hlow : i + n < w
  · rw [Nat.mod_eq_of_lt hlow]
    simp [show i < w - n by omega, Nat.add_comm]
  · have hwrap : (i + n) % w = i - (w - n) := by
      rw [Nat.mod_eq_sub_mod (by omega), Nat.mod_eq_of_lt (by omega)]
      omega
    rw [hwrap]
    simp [show ¬ i < w - n by omega, hi]

/-- Settles O44. -/
theorem shiftAndRotateFormulas : Obligations.ShiftAndRotateFormulas :=
  fun _ n x hn => ⟨shr_toNat n x, fun _ => ⟨rotr_toNat n x, fun _ hi => rotr_getLsbD x hn hi⟩⟩

/-! ## The functions of the schedule (R151 to R155) and of the round (R170 to R174) -/

/-- A bit of the shape of sigma0 and sigma1: two rotations and a shift. -/
theorem rotr_rotr_shr_getLsbD {w : Nat} (x : BitVec w) {p q n i : Nat} (hp : p < w) (hq : q < w) (hi : i < w) :
    (rotr p x ^^^ rotr q x ^^^ shr n x).getLsbD i =
      ((x.getLsbD ((i + p) % w) ^^ x.getLsbD ((i + q) % w)) ^^ (decide (i + n < w) && x.getLsbD (i + n))) := by
  rw [BitVec.getLsbD_xor, BitVec.getLsbD_xor, rotr_getLsbD x hp hi, rotr_getLsbD x hq hi, shr_getLsbD]

/-- A bit of the shape of Sigma0 and Sigma1: three rotations. -/
theorem rotr_rotr_rotr_getLsbD {w : Nat} (x : BitVec w) {p q r i : Nat} (hp : p < w) (hq : q < w) (hr : r < w)
    (hi : i < w) :
    (rotr p x ^^^ rotr q x ^^^ rotr r x).getLsbD i =
      ((x.getLsbD ((i + p) % w) ^^ x.getLsbD ((i + q) % w)) ^^ x.getLsbD ((i + r) % w)) := by
  rw [BitVec.getLsbD_xor, BitVec.getLsbD_xor, rotr_getLsbD x hp hi, rotr_getLsbD x hq hi, rotr_getLsbD x hr hi]

/-- Settles O45: each of the four functions has the shape of `rotr_rotr_shr_getLsbD`, with its own amounts. -/
theorem smallSigmaBitByBit : Obligations.SmallSigmaBitByBit := by
  refine ⟨fun x i hi => ⟨?sigma0w32, ?sigma1w32⟩, fun x i hi => ⟨?sigma0w64, ?sigma1w64⟩⟩
  case sigma0w32 => exact rotr_rotr_shr_getLsbD x (p := 7) (q := 18) (n := 3) (by decide) (by decide) hi
  case sigma1w32 => exact rotr_rotr_shr_getLsbD x (p := 17) (q := 19) (n := 10) (by decide) (by decide) hi
  case sigma0w64 => exact rotr_rotr_shr_getLsbD x (p := 1) (q := 8) (n := 7) (by decide) (by decide) hi
  case sigma1w64 => exact rotr_rotr_shr_getLsbD x (p := 19) (q := 61) (n := 6) (by decide) (by decide) hi

/-- Settles O46: each of the four functions has the shape of `rotr_rotr_rotr_getLsbD`, with its own amounts. -/
theorem bigSigmaBitByBit : Obligations.BigSigmaBitByBit := by
  refine ⟨fun x i hi => ⟨?sigma0w32, ?sigma1w32⟩, fun x i hi => ⟨?sigma0w64, ?sigma1w64⟩⟩
  case sigma0w32 => exact rotr_rotr_rotr_getLsbD x (p := 2) (q := 13) (r := 22) (by decide) (by decide) (by decide) hi
  case sigma1w32 => exact rotr_rotr_rotr_getLsbD x (p := 6) (q := 11) (r := 25) (by decide) (by decide) (by decide) hi
  case sigma0w64 => exact rotr_rotr_rotr_getLsbD x (p := 28) (q := 34) (r := 39) (by decide) (by decide) (by decide) hi
  case sigma1w64 => exact rotr_rotr_rotr_getLsbD x (p := 14) (q := 18) (r := 41) (by decide) (by decide) (by decide) hi

/-! ## What variants of one word width share (R191, R201) -/

theorem blockBytes_eq_of_width_eq {u v : Variant} (h : u.width = v.width) : u.blockBytes = v.blockBytes := by
  rw [Variant.blockBytes, Variant.blockBytes, h]

theorem lenBytes_eq_of_width_eq {u v : Variant} (h : u.width = v.width) : u.lenBytes = v.lenBytes := by
  rw [Variant.lenBytes, Variant.lenBytes, Variant.lenBits, Variant.lenBits, h]

theorem compressCells_eq_of_width_eq {u v : Variant} (h : u.width = v.width) (cells : Vector Cell 8) (blk : List Byte) :
    compressCells u cells blk = compressCells v cells blk := by
  rw [compressCells, compressCells, h]

theorem pad_eq_of_width_eq {u v : Variant} (h : u.width = v.width) (r L : Nat) : pad u r L = pad v r L := by
  rw [pad, pad, padZeros, padZeros, blockBytes_eq_of_width_eq h, lenBytes_eq_of_width_eq h]

/-- The initial states of the two variants of each width differ in every word (R194 to R197). -/
theorem ivCells_ne (i : Fin 8) :
    (ivCells .sha224)[i] ≠ (ivCells .sha256)[i] ∧ (ivCells .sha384)[i] ≠ (ivCells .sha512)[i] := by
  revert i
  decide

/-- Settles O54: what is shared depends on the variant through its word width alone. -/
theorem sharedLogicDistinctInitialStates : Obligations.SharedLogicDistinctInitialStates := by
  have h32 : Variant.sha224.width = Variant.sha256.width := rfl
  have h64 : Variant.sha384.width = Variant.sha512.width := rfl
  exact ⟨⟨h32, h64⟩, ⟨blockBytes_eq_of_width_eq h32, blockBytes_eq_of_width_eq h64⟩, ⟨rfl, rfl, rfl, rfl⟩,
    compressCells_eq_of_width_eq h32, compressCells_eq_of_width_eq h64,
    fun r L => ⟨pad_eq_of_width_eq h32 r L, pad_eq_of_width_eq h64 r L⟩, ivCells_ne⟩

end Sys2Proof.Machine
end

section
/-! SUPPORT and PROOFS. What every step keeps (spec/10_state.md): the registers no rule reads stay unread (R35, R251), the
invariant (R32 to R39), the moves of STATUS (R31), and the frames of VAR and LEN (R30, R37) and of BUF (R35, R101). -/

namespace Sys2Proof.Machine

/-! ## The four next states of a step (R100) -/

/-- Whole-machine inversion: what a step that answers a next state has read and where it has gone. -/
theorem step_next_cases {s t : State} (h : step s = .next t) :
    (∃ v rest, decodeStream s.stream = .command (.init v) rest ∧ t = afterInit v (consumeTo rest s)) ∨
    (∃ p rest, decodeStream s.stream = .command (.input p) rest ∧ s.status = .active ∧
      s.len.toNat + 8 * p.length ≤ s.var.lmax ∧ t = afterInput p (consumeTo rest s)) ∨
    (∃ rest, decodeStream s.stream = .command .hash rest ∧ s.status = .active ∧ t = afterHash (consumeTo rest s)) ∨
    (∃ e rest, (∀ v rest', decodeStream s.stream ≠ .command (.init v) rest') ∧ t = raiseError e (consumeTo rest s)) := by
  rcases step_cases h with ⟨i, rest, hf, hx⟩ | ⟨why, rest, hf, rfl⟩
  · have hd : decodeStream s.stream = .command i rest := hf
    obtain ⟨t', ht', hcases⟩ := exec_cases i (consumeTo rest s)
    obtain rfl : t = t' := by simpa [hx] using ht'
    rcases hcases with ⟨v, rfl, rfl⟩ | ⟨p, rfl, ha, hl, rfl⟩ | ⟨rfl, ha, rfl⟩ | ⟨e, rfl, hwhy⟩
    · exact .inl ⟨v, rest, hd, rfl⟩
    · exact .inr (.inl ⟨p, rest, hd, ha, hl, rfl⟩)
    · exact .inr (.inr (.inl ⟨rest, hd, ha, rfl⟩))
    · have hi : ∀ v, i ≠ .init v := by
        rcases hwhy with ⟨-, -, hi⟩ | ⟨-, -, p, rfl, -⟩
        · exact hi
        · simp
      exact .inr (.inr (.inr ⟨e, rest, fun v rest' hinit => hi v (Decoded.command.inj (hd.symm.trans hinit)).1, rfl⟩))
  · have hd : decodeStream s.stream = .illegal why rest := hf
    exact .inr (.inr (.inr ⟨.illegalCommand, rest, by simp [hd], rfl⟩))

/-! ### The registers after a successful command -/

@[simp] theorem afterInit_status (v : Variant) (s : State) : (afterInit v s).status = .active := rfl

@[simp] theorem afterInput_status (p : List Byte) (s : State) : (afterInput p s).status = s.status := by
  simp [afterInput]

@[simp] theorem afterInput_var (p : List Byte) (s : State) : (afterInput p s).var = s.var := by
  simp [afterInput]

@[simp] theorem afterInput_err (p : List Byte) (s : State) : (afterInput p s).err = s.err := by
  simp [afterInput]

@[simp] theorem afterInput_len (p : List Byte) (s : State) : (afterInput p s).len = (countBytes p.length s).len := by
  simp [afterInput]

@[simp] theorem afterHash_status (s : State) : (afterHash s).status = .finalized := rfl

@[simp] theorem afterHash_var (s : State) : (afterHash s).var = s.var := absorbTail_var s

@[simp] theorem afterHash_err (s : State) : (afterHash s).err = s.err := absorbTail_err s

@[simp] theorem afterHash_len (s : State) : (afterHash s).len = s.len := absorbTail_len s

/-! ## Registers no rule reads (R35, R251)

`State.SameEngine` says that two states agree in everything a command reads while ACTIVE; it is what one absorbed byte, and so
every command, keeps. -/

/-- A BUFLEN past the end of BUF makes all of BUF pending. -/
theorem State.SameEngine.buf_eq {s t : State} (h : s.SameEngine t) (hfull : 128 ≤ s.bufLen.toNat) : s.buf = t.buf := by
  have hp := h.pending
  have hfull' : 128 ≤ t.bufLen.toNat := h.bufLen ▸ hfull
  rw [State.pending, State.pending, List.take_of_length_le (by simpa using hfull),
    List.take_of_length_le (by simpa using hfull')] at hp
  exact Vector.toList_inj.mp hp

theorem State.SameEngine.pushByte {s t : State} (h : s.SameEngine t) (x : Byte) :
    (pushByte x s).SameEngine (pushByte x t) where
  var := h.var
  status := h.status
  err := h.err
  h := h.h
  bufLen := by rw [pushByte_bufLen, pushByte_bufLen, h.bufLen]
  len := h.len
  stream := h.stream
  pending := by
    rcases Nat.lt_or_ge s.bufLen.toNat 128 with hroom | hfull
    · rw [pushByte_pending hroom, pushByte_pending (h.bufLen ▸ hroom), h.pending]
    · simp only [State.pending, pushByte_buf, pushByte_bufLen, h.buf_eq hfull, h.bufLen]

/-- A full block is compressed from the pending bytes, which are all of it. -/
theorem State.SameEngine.compressIfFull {s t : State} (h : s.SameEngine t) :
    (compressIfFull s).SameEngine (compressIfFull t) := by
  by_cases hfull : s.bufLen.toNat = s.var.blockBytes
  · have hfull' : t.bufLen.toNat = t.var.blockBytes := by rw [← h.bufLen, ← h.var, hfull]
    have hblock : bufBlock s = bufBlock t := by
      have hp := h.pending
      rwa [State.pending, State.pending, hfull, hfull'] at hp
    rw [Machine.compressIfFull, Machine.compressIfFull, if_pos hfull, if_pos hfull']
    exact { h with
      h := by rw [h.var, h.h, hblock]
      bufLen := rfl
      pending := by simp [State.pending] }
  · have hroom : ¬ t.bufLen.toNat = t.var.blockBytes := by rwa [← h.bufLen, ← h.var]
    rwa [Machine.compressIfFull, Machine.compressIfFull, if_neg hfull, if_neg hroom]

theorem State.SameEngine.absorbAll {s t : State} (h : s.SameEngine t) (xs : List Byte) :
    (absorbAll xs s).SameEngine (absorbAll xs t) := by
  induction xs generalizing s t with
  | nil => exact h
  | cons x xs ih => exact ih (h.pushByte x).compressIfFull

theorem State.SameEngine.countBytes {s t : State} (h : s.SameEngine t) (n : Nat) :
    (countBytes n s).SameEngine (countBytes n t) :=
  { h with len := by rw [countBytes_len, countBytes_len, h.len] }

theorem State.SameEngine.absorbTail {s t : State} (h : s.SameEngine t) : (absorbTail s).SameEngine (absorbTail t) := by
  rw [Machine.absorbTail, Machine.absorbTail, ← h.var, ← h.bufLen, ← h.len]
  exact h.absorbAll _

/-! ### From the registers to the host's view, and back -/

/-- While ACTIVE, what the host cannot tell apart agrees in every register a command reads. -/
theorem State.SameToHost.sameEngine {s t : State} (h : s.SameToHost t) (ha : s.status = .active) : s.SameEngine t := by
  obtain ⟨hvar, hh, hlen, hbufLen, hpending⟩ := h.registers ha
  exact ⟨hvar, h.status, h.err, hh, hbufLen, hlen, hpending, h.stream⟩

theorem State.SameEngine.sameToHost {s t : State} (h : s.SameEngine t) (hsent : s.sent = t.sent) : s.SameToHost t :=
  ⟨h.stream, hsent, h.status, h.err, fun _ => ⟨h.var, h.h, h.len, h.bufLen, h.pending⟩⟩

theorem State.SameToHost.respond {s t : State} (h : s.SameToHost t) (c : Byte) (d : List Byte) :
    (respond c d s).SameToHost (respond c d t) :=
  { h with sent := by rw [respond_sent, respond_sent, h.sent] }

theorem State.SameToHost.consumeTo {s t : State} (h : s.SameToHost t) (rest : List Byte) :
    (consumeTo rest s).SameToHost (consumeTo rest t) :=
  { h with stream := rfl }

/-- The fault entry reads STATUS and ERR alone, and leaves ACTIVE (R224). -/
theorem State.SameToHost.raiseError {s t : State} (h : s.SameToHost t) (e : EngineError) :
    (raiseError e s).SameToHost (raiseError e t) where
  stream := h.stream
  sent := by rw [raiseError_sent, raiseError_sent, h.sent]
  status := rfl
  err := by rw [raiseError_err, raiseError_err, errAfter, errAfter, h.status, h.err]
  registers := by simp

/-- INIT reads no register at all (R104). -/
theorem afterInit_sameToHost (v : Variant) {s t : State} (hstream : s.stream = t.stream) (hsent : s.sent = t.sent) :
    (afterInit v s).SameToHost (afterInit v t) where
  stream := hstream
  sent := by simp [afterInit, hsent]
  status := rfl
  err := rfl
  registers _ := ⟨rfl, rfl, rfl, rfl, by simp [afterInit, State.pending]⟩

theorem State.SameToHost.afterInput {s t : State} (h : s.SameToHost t) (ha : s.status = .active) (p : List Byte) :
    (afterInput p s).SameToHost (afterInput p t) :=
  (((h.sameEngine ha).countBytes _).absorbAll p |>.sameToHost (by simpa using h.sent)).respond _ _

theorem State.SameToHost.afterHash {s t : State} (h : s.SameToHost t) (ha : s.status = .active) :
    (afterHash s).SameToHost (afterHash t) := by
  have htail := (h.sameEngine ha).absorbTail
  rw [Machine.afterHash, Machine.afterHash, (h.sameEngine ha).var, htail.h]
  have hfinal : State.SameEngine { absorbTail s with status := .finalized } { absorbTail t with status := .finalized } :=
    { htail with status := rfl }
  exact (hfinal.sameToHost (by simpa using h.sent)).respond _ _

/-- Every command takes two states the host cannot tell apart to two such states. -/
theorem State.SameToHost.exec {s t : State} (h : s.SameToHost t) (i : Instr) :
    ∃ s' t', exec i s = .next s' ∧ exec i t = .next t' ∧ s'.SameToHost t' := by
  cases i with
  | init v => exact ⟨_, _, exec_init v s, exec_init v t, afterInit_sameToHost v h.stream h.sent⟩
  | input p =>
    by_cases ha : s.status = .active
    · have ha' : t.status = .active := h.status ▸ ha
      obtain ⟨hvar, -, hlen, -⟩ := h.registers ha
      by_cases hfits : s.len.toNat + 8 * p.length ≤ s.var.lmax
      · exact ⟨_, _, exec_input_ok ha hfits, exec_input_ok ha' (hvar ▸ hlen ▸ hfits), h.afterInput ha p⟩
      · have hover : s.var.lmax < s.len.toNat + 8 * p.length := Nat.lt_of_not_le hfits
        exact ⟨_, _, exec_input_overflow ha hover, exec_input_overflow ha' (hvar ▸ hlen ▸ hover), h.raiseError _⟩
    · exact ⟨_, _, exec_input_inactive p ha, exec_input_inactive p (h.status ▸ ha), h.raiseError _⟩
  | hash =>
    by_cases ha : s.status = .active
    · exact ⟨_, _, exec_hash_ok ha, exec_hash_ok (h.status ▸ ha), h.afterHash ha⟩
    · exact ⟨_, _, exec_hash_inactive ha, exec_hash_inactive (h.status ▸ ha), h.raiseError _⟩

/-- Whether a step is stuck, and on what, depends on the stream alone: no command's meaning is a fault (R258). -/
theorem step_fault_of_fetch_eq {s t : State} {r : Fault} (h : fetch s = fetch t) (hs : step s = .fault r) :
    step t = .fault r := by
  cases hf : fetch s with
  | command i rest =>
    obtain ⟨s', hs', -⟩ := exec_cases i (consumeTo rest s)
    simp [step_command hf, hs'] at hs
  | illegal why rest => simp [step_illegal hf] at hs
  | partialWord => simpa [step, ← h, hf] using hs
  | partialPayload => simpa [step, ← h, hf] using hs

/-- Settles O3: both states fetch the same command, and every command keeps what the host sees. -/
theorem unreadRegistersStayUnread : Obligations.UnreadRegistersStayUnread := by
  intro s t h
  have hfetch : fetch s = fetch t := by rw [fetch, fetch, h.stream]
  refine ⟨fun s' hs => ?_, fun r hs => step_fault_of_fetch_eq hfetch hs⟩
  rcases step_cases hs with ⟨i, rest, hf, hx⟩ | ⟨why, rest, hf, rfl⟩
  · obtain ⟨s'', t', hs', ht', hsame⟩ := (h.consumeTo rest).exec i
    obtain rfl : s' = s'' := by simpa [hx] using hs'
    exact ⟨t', by rw [step_command (hfetch ▸ hf), ht'], hsame⟩
  · exact ⟨_, step_illegal (hfetch ▸ hf), (h.consumeTo rest).raiseError _⟩

/-! ## The invariant (R32 to R39) -/

/-- Absorbing writes H through compressions alone, so the words keep the variant's width (R34). -/
theorem absorb_widthsOk (x : Byte) {s : State} (h : s.WidthsOk) : (absorb x s).WidthsOk := by
  refine ⟨fun i => ?_, by simpa using h.2⟩
  rw [absorb_h, absorb_var]
  split
  · exact cellsOfWords_lt _ _ i i.isLt
  · exact h.1 i

theorem absorbAll_widthsOk (xs : List Byte) {s : State} (h : s.WidthsOk) : (absorbAll xs s).WidthsOk := by
  induction xs generalizing s with
  | nil => exact h
  | cons x xs ih => exact ih (absorb_widthsOk x h)

theorem countBytes_widthsOk {n : Nat} {s : State} (h : s.WidthsOk) (hfits : s.len.toNat + 8 * n ≤ s.var.lmax) :
    (countBytes n s).WidthsOk :=
  ⟨h.1, by rw [countBytes_len_toNat hfits]; exact hfits⟩

/-- BUFLEN after absorbing, counted modulo the block (R101). -/
theorem absorbAll_bufLen_toNat (xs : List Byte) {s : State} (h : s.bufLen.toNat < s.var.blockBytes) :
    (absorbAll xs s).bufLen.toNat = (s.bufLen.toNat + xs.length) % s.var.blockBytes := by
  have hB := blockBytes_le s.var
  rw [(absorbAll_consumes xs s h).2.1, List.length_append, pending_length (by omega)]

theorem State.Inv.consumeTo {s : State} (h : s.Inv) (rest : List Byte) : (consumeTo rest s).Inv :=
  ⟨h.widths, h.err, h.buffer⟩

/-- The first error writes its own code to ERR, a later one keeps the first (R224). -/
theorem State.Inv.raiseError {s : State} (h : s.Inv) (e : EngineError) : (raiseError e s).Inv where
  widths := h.widths
  err := by
    refine ⟨by simp, fun _ => ?_⟩
    rw [raiseError_err, errAfter]
    split
    · next hfaulted => exact h.err.2 hfaulted
    · cases e <;> decide
  buffer := by simp

theorem afterInit_inv (v : Variant) (s : State) : (afterInit v s).Inv where
  widths := ⟨fun i => cellsOfWords_lt _ _ i i.isLt, Nat.zero_le _⟩
  err := ⟨fun _ => rfl, by simp⟩
  buffer _ := by simp [afterInit]

/-- LEN and BUFLEN count the same payload bytes (R38). -/
theorem State.Inv.afterInput {s : State} (h : s.Inv) (ha : s.status = .active) {p : List Byte}
    (hfits : s.len.toNat + 8 * p.length ≤ s.var.lmax) : (afterInput p s).Inv where
  widths := absorbAll_widthsOk p (countBytes_widthsOk h.widths hfits)
  err := by simpa only [State.ErrOk, afterInput_status, afterInput_err] using h.err
  buffer _ := by
    obtain ⟨hmul, hbufLen⟩ := h.buffer ha
    have hlen : (Machine.afterInput p s).len.toNat = s.len.toNat + 8 * p.length := by
      rw [afterInput_len, countBytes_len_toNat hfits]
    have hbuf : (Machine.afterInput p s).bufLen.toNat = (s.bufLen.toNat + p.length) % s.var.blockBytes :=
      absorbAll_bufLen_toNat p (s := countBytes p.length s) (h.bufLen_lt ha)
    have hbytes : (s.len.toNat + 8 * p.length) / 8 = s.len.toNat / 8 + p.length := by omega
    rw [afterInput_var, hlen, hbuf, hbytes, hbufLen, Nat.mod_add_mod]
    exact ⟨by omega, rfl⟩

theorem State.Inv.afterHash {s : State} (h : s.Inv) (ha : s.status = .active) : (afterHash s).Inv where
  widths := absorbAll_widthsOk _ h.widths
  err := ⟨fun _ => by rw [afterHash_err]; exact h.err.1 (by simp [ha]), by simp⟩
  buffer := by simp

/-- Settles O20, by the four next states of a step. -/
theorem invariantKeptByEveryStep : Obligations.InvariantKeptByEveryStep := by
  intro s t h hstep
  rcases step_next_cases hstep with ⟨v, rest, -, rfl⟩ | ⟨p, rest, -, ha, hfits, rfl⟩ | ⟨rest, -, ha, rfl⟩ |
    ⟨e, rest, -, rfl⟩
  · exact afterInit_inv v _
  · exact (h.consumeTo rest).afterInput ha hfits
  · exact (h.consumeTo rest).afterHash ha
  · exact (h.consumeTo rest).raiseError e

/-! ## STATUS (R31), VAR and LEN (R30, R37) -/

/-- Settles O16: each of the four next states of a step has its own STATUS. -/
theorem lifecycleMoves : Obligations.LifecycleMoves := by
  intro s t hstep
  rcases step_next_cases hstep with ⟨v, rest, hd, rfl⟩ | ⟨p, rest, hd, ha, -, rfl⟩ | ⟨rest, hd, ha, rfl⟩ |
    ⟨e, rest, hnot, rfl⟩
  · exact .inl ⟨v, rest, hd, rfl⟩
  · exact .inr (.inr (.inl ⟨p, rest, hd, ha, by simpa using ha⟩))
  · exact .inr (.inl ⟨rest, hd, ha, rfl⟩)
  · exact .inr (.inr (.inr ⟨hnot, rfl⟩))

/-- Settles O17: of the next states of a step only INIT's has another VAR, and only INIT's and INPUT's another LEN. -/
theorem onlyInitWritesVarAndHashKeepsLen : Obligations.OnlyInitWritesVarAndHashKeepsLen := by
  intro s t hstep hnoInit
  rcases step_next_cases hstep with ⟨v, rest, hd, -⟩ | ⟨p, rest, hd, -, -, rfl⟩ | ⟨rest, -, -, rfl⟩ |
    ⟨e, rest, -, rfl⟩
  · exact absurd hd (hnoInit v rest)
  · exact ⟨by simp, fun hnoInput => absurd hd (hnoInput p rest)⟩
  · exact ⟨by simp, fun _ => by simp⟩
  · exact ⟨rfl, fun _ => rfl⟩

/-! ## BUF (R35, R101) -/

/-- Settles O25: INPUT's bytes of BUF are those of absorbing the payload. -/
theorem inputWritesOnlyTheBufferBytesItStores : Obligations.InputWritesOnlyTheBufferBytesItStores := by
  intro s payload h ha hfits
  have hroom := h.bufLen_lt ha
  exact ⟨_, exec_input_ok ha hfits, absorbAll_buf_stored payload (countBytes payload.length s) hroom,
    absorbAll_buf_frame payload (countBytes payload.length s) hroom⟩

/-- Settles O30: HASH's bytes of BUF are those of absorbing the tail. -/
theorem hashWritesOnlyTheBufferBytesOfTheTail : Obligations.HashWritesOnlyTheBufferBytesOfTheTail := by
  intro s h ha
  have hroom := h.bufLen_lt ha
  exact ⟨_, exec_hash_ok ha, absorbAll_buf_stored _ s hroom, absorbAll_buf_frame _ s hroom⟩

end Sys2Proof.Machine
end

section
/-! SUPPORT and PROOFS. Big-endian words at the edges of the compression (spec/20_memory.md): the words a block is read as (R60,
R150), the bytes the digest is written as (R62, R210), and the independence of instances (R71). -/

namespace Sys2Proof.Machine

/-- A word has one value for each sequence of its bytes (R9, R11). -/
theorem two_pow_bits (ww : Width) : 2 ^ ww.bits = 256 ^ ww.bytes := by cases ww <;> decide

/-! ## A block is 16 big-endian words (R60, R150) -/

theorem blockBytes_eq_sixteen_words (v : Variant) : v.blockBytes = 16 * v.width.bytes := by cases v <;> decide

theorem parseBlock_getElem (ww : Width) (blk : List Byte) (j : Nat) (hj : j < (parseBlock ww blk).length) :
    (parseBlock ww blk)[j] = blockWord ww blk j := by
  simp [parseBlock]

/-- The bytes of a block that word j is read from. -/
theorem blockWord_bytes_length {ww : Width} {blk : List Byte} (hlen : blk.length = 16 * ww.bytes) {j : Nat} (hj : j < 16) :
    ((blk.drop (j * ww.bytes)).take ww.bytes).length = ww.bytes := by
  have hend : (j + 1) * ww.bytes ≤ 16 * ww.bytes := Nat.mul_le_mul_right _ hj
  rw [Nat.succ_mul] at hend
  rw [List.length_take, List.length_drop, hlen]
  omega

/-- At most wb bytes fit a word, so nothing is lost in reading them. -/
theorem blockWord_toNat (ww : Width) (blk : List Byte) (j : Nat) :
    (blockWord ww blk j).toNat = beWord ((blk.drop (j * ww.bytes)).take ww.bytes) := by
  have hfits : beWord ((blk.drop (j * ww.bytes)).take ww.bytes) < 256 ^ ww.bytes :=
    (beWord_lt _).trans_le (Nat.pow_le_pow_right (by decide) (List.length_take_le _ _))
  rw [blockWord, BitVec.toNat_ofNat, two_pow_bits, Nat.mod_eq_of_lt hfits]

/-- Settles O48: each word is read from wb bytes, and be_bytes is the inverse of be_word. -/
theorem blockParsesIntoBigEndianWords : Obligations.BlockParsesIntoBigEndianWords := by
  intro v blk hlen
  have hwords := blockBytes_eq_sixteen_words v
  refine ⟨parseBlock_length _ _, hwords, fun j hj => ?_⟩
  have hbytes := blockWord_bytes_length (hlen.trans hwords) (by simpa using hj : j < 16)
  have hinverse := beBytes_beWord ((blk.drop (j * v.width.bytes)).take v.width.bytes)
  rw [hbytes] at hinverse
  rw [parseBlock_getElem, blockWord_toNat]
  exact ⟨rfl, hinverse⟩

/-! ## The digest is the leading words of H (R62, R210) -/

/-- Where every element gives n entries, entry j of element i stands at i * n + j. -/
theorem getElem?_flatMap_of_length_eq {α β : Type} {f : α → List β} {n : Nat} (hf : ∀ x, (f x).length = n)
    (xs : List α) (i : Nat) {j : Nat} (hj : j < n) :
    (xs.flatMap f)[i * n + j]? = xs[i]?.bind fun x => (f x)[j]? := by
  induction xs generalizing i with
  | nil => simp
  | cons x xs ih =>
    rw [List.flatMap_cons]
    cases i with
    | zero => rw [Nat.zero_mul, Nat.zero_add, List.getElem?_append_left (by rwa [hf])]; rfl
    | succ i =>
      have hnext : (i + 1) * n + j = n + (i * n + j) := by ring
      rw [hnext, List.getElem?_append_right (by rw [hf]; omega), hf, Nat.add_sub_cancel_left, ih,
        List.getElem?_cons_succ]

theorem digestBytes_eq (v : Variant) : v.digestBytes = v.digestWords * v.width.bytes := by cases v <;> decide

/-- The bytes of a word of H are bytes of its cell: the bits of a cell above w are not read (R34). -/
theorem beBytes_wordsOfCells (ww : Width) (cells : Vector Cell 8) (i : Fin 8) :
    beBytes ww.bytes (wordsOfCells ww cells)[i].toNat = beBytes ww.bytes cells[i].toNat := by
  rw [beBytes_mod _ cells[i].toNat, ← two_pow_bits, Fin.getElem_fin, wordsOfCells, resizeWords_getElem,
    BitVec.toNat_setWidth, Fin.getElem_fin]

/-- Settles O42: the cut after d bytes falls between words, so each word kept is there with all its bytes. -/
theorem digestIsTheLeadingWordsBigEndian : Obligations.DigestIsTheLeadingWordsBigEndian := by
  intro v cells
  refine ⟨formatDigest_length v cells, digestBytes_eq v, fun i j hi hj => ?_⟩
  have hkept : i.val * v.width.bytes + j < v.digestBytes := by
    have hend : (i.val + 1) * v.width.bytes ≤ v.digestWords * v.width.bytes := Nat.mul_le_mul_right _ hi
    rw [Nat.succ_mul] at hend
    rw [digestBytes_eq]
    omega
  have hword : (wordsOfCells v.width cells).toList[i.val]? = some (wordsOfCells v.width cells)[i] := by simp
  rw [formatDigest, List.getElem?_take_of_lt hkept, getElem?_flatMap_of_length_eq (fun _ => beBytes_length _ _) _ _ hj,
    hword, Option.bind_some, beBytes_wordsOfCells, beBytes_getElem? _ _ _ hj, Nat.shiftRight_eq_div_pow]

/-! ## Instances (R46, R71) -/

/-- A step in place k reads entry k and replaces it. -/
theorem stepInstance_eq_some_iff {k : Nat} {engines engines' : List State} :
    stepInstance k engines = some engines' ↔
      ∃ s t, engines[k]? = some s ∧ step s = .next t ∧ engines' = engines.set k t := by
  unfold stepInstance
  cases engines[k]? with
  | none => simp
  | some s => cases hstep : step s <;> simp [hstep, eq_comm]

/-- Two steps of different instances can be taken in the other order. -/
theorem stepInstance_swap {j k : Nat} (hne : j ≠ k) {engines mid last : List State}
    (hj : stepInstance j engines = some mid) (hk : stepInstance k mid = some last) :
    ∃ mid', stepInstance k engines = some mid' ∧ stepInstance j mid' = some last := by
  obtain ⟨s, s', hs, hstep, rfl⟩ := stepInstance_eq_some_iff.mp hj
  obtain ⟨t, t', ht, htstep, rfl⟩ := stepInstance_eq_some_iff.mp hk
  rw [List.getElem?_set_ne hne] at ht
  refine ⟨engines.set k t', stepInstance_eq_some_iff.mpr ⟨t, t', ht, htstep, rfl⟩,
    stepInstance_eq_some_iff.mpr ⟨s, s', ?_, hstep, List.set_comm _ _ hne⟩⟩
  rw [List.getElem?_set_ne hne.symm, hs]

/-- Settles O56: whatever one order reaches, the other order reaches too. -/
theorem instancesAreIndependent : Obligations.InstancesAreIndependent := by
  intro engines j k hne
  ext last
  simp only [Option.bind_eq_some_iff]
  constructor
  · rintro ⟨mid, hj, hk⟩
    exact stepInstance_swap hne hj hk
  · rintro ⟨mid, hk, hj⟩
    exact stepInstance_swap hne.symm hk hj

end Sys2Proof.Machine
end

section
/-! SUPPORT and PROOFS. The encoding (spec/30_encoding.md): decoder and encoder agree in both directions (R80 to R90), the
pseudo-commands (R91, R92), the responses of a step (R88, R89), and the run of an encoded message (R111). -/

namespace Sys2Proof.Machine

/-! ## Decoding what was encoded (R80, R82 to R85) -/

/-- A command's word stands before its payload. -/
theorem encode_append (i : Instr) (rest : List Byte) :
    encode i ++ rest = beBytes 4 (encodeWord i).toNat ++ (encodePayload i ++ rest) :=
  List.append_assoc _ _ _

/-- A payload of at most NMAX bytes has its length in the field N (R12, R83). -/
theorem payloadCount_toNat {payload : List Byte} (h : payload.length ≤ Config.nmax) :
    (BitVec.ofNat 28 payload.length).toNat = payload.length := by
  rw [Config.nmax] at h
  rw [BitVec.toNat_ofNat, Nat.mod_eq_of_lt (by omega)]

/-- Taking a payload of n bytes is cutting the stream after n bytes (R83). -/
theorem takePayload_eq_command_iff {n : Nat} {bytes rest : List Byte} {i : Instr} :
    takePayload n bytes = .command i rest ↔
      ∃ payload, i = .input payload ∧ payload.length = n ∧ bytes = payload ++ rest := by
  unfold takePayload
  constructor
  · split
    · next hle =>
      rintro ⟨⟩
      exact ⟨bytes.take n, rfl, List.length_take_of_le hle, (List.take_append_drop n bytes).symm⟩
    · rintro ⟨⟩
  · rintro ⟨payload, rfl, rfl, rfl⟩
    simp

/-- Settles O4: each command's word decodes to it, and INPUT's count cuts its payload off again. -/
theorem decodeOfEncodeGivesTheCommand : Obligations.DecodeOfEncodeGivesTheCommand := by
  intro i rest hwf
  rw [encode_append, decodeStream_word]
  cases i with
  | init v => rw [decodeWord_init]; rfl
  | input payload =>
    have hfits : payload.length ≤ Config.nmax := of_decide_eq_true hwf
    rw [encodeWord, decodeWord_inputWord]
    exact takePayload_eq_command_iff.mpr ⟨payload, rfl, (payloadCount_toNat hfits).symm, rfl⟩
  | hash => rw [decodeWord_hash]; rfl

/-! ## Nothing else decodes to a command (R87, R90) -/

/-- Settles O5: the first four bytes are the word the command is read from, and only the command's own word gives it. -/
theorem onlyItsEncodingDecodesToACommand : Obligations.OnlyItsEncodingDecodesToACommand := by
  intro bytes rest i h
  have hlen : 4 ≤ bytes.length := by
    by_contra hshort
    rw [decodeStream_short (Nat.lt_of_not_le hshort)] at h
    cases h
  obtain ⟨w, hw⟩ := exists_word hlen
  generalize bytes.drop 4 = tail at hw
  subst hw
  rw [decodeStream_word] at h
  cases hd : decodeWord w with
  | init v =>
    rw [hd] at h
    cases h
    exact ⟨rfl, by rw [encode_append, ← word_of_init hd]; rfl⟩
  | input n =>
    rw [hd] at h
    obtain ⟨payload, rfl, hn, rfl⟩ := takePayload_eq_command_iff.mp h
    have hcount : BitVec.ofNat 28 payload.length = n := by rw [hn, BitVec.ofNat_toNat, BitVec.setWidth_eq]
    have hword : encodeWord (.input payload) = w := by rw [encodeWord, hcount, word_of_input hd]
    have hfits : payload.length ≤ Config.nmax := by
      have := n.isLt
      rw [Config.nmax]
      omega
    exact ⟨decide_eq_true hfits, by rw [encode_append, hword]; rfl⟩
  | hash =>
    rw [hd] at h
    cases h
    exact ⟨rfl, by rw [encode_append, ← word_of_hash hd]; rfl⟩
  | illegal why =>
    rw [hd] at h
    cases h

/-! ## A word as a number (R81 to R87) -/

theorem opField_toNat (w : CommandWord) : (opField w).toNat = w.toNat / 2 ^ 28 := by
  rw [opField, BitVec.extractLsb'_toNat, Nat.shiftRight_eq_div_pow, Nat.mod_eq_of_lt]
  have := w.isLt
  omega

theorem argField_toNat (w : CommandWord) : (argField w).toNat = w.toNat % 2 ^ 28 :=
  BitVec.extractLsb'_toNat 0 28 w

theorem initReservedField_toNat (w : CommandWord) : (initReservedField w).toNat = w.toNat / 4 % 2 ^ 26 := by
  rw [initReservedField, BitVec.extractLsb'_toNat, Nat.shiftRight_eq_div_pow]

theorem varField_toNat (w : CommandWord) : (varField w).toNat = w.toNat % 4 :=
  BitVec.extractLsb'_toNat 0 2 w

/-- The decoder's tests, on the word's value. -/
theorem decodeWord_eq (w : CommandWord) : decodeWord w =
    if w.toNat / 2 ^ 28 = 1 then
      if w.toNat / 4 % 2 ^ 26 = 0 then .init (Variant.ofCode (varField w)) else .illegal .initReservedBits
    else if w.toNat / 2 ^ 28 = 2 then .input (argField w)
    else if w.toNat / 2 ^ 28 = 3 then
      if w.toNat % 2 ^ 28 = 0 then .hash else .illegal .hashReservedBits
    else .illegal .unknownOp := by
  simp only [decodeWord, ← BitVec.toNat_inj, opField_toNat, argField_toNat, initReservedField_toNat]
  rfl

/-- A match on the bits from k up is a test of the word's value divided by 2^k. -/
theorem and_highMask_eq_iff (w : CommandWord) (k c : Nat) (hc : c * 2 ^ k < 2 ^ 32) :
    w &&& BitVec.allOnes 32 <<< k = BitVec.ofNat 32 (c * 2 ^ k) ↔ w.toNat / 2 ^ k = c := by
  have hle : w.toNat / 2 ^ k * 2 ^ k < 2 ^ 32 := (Nat.div_mul_le_self _ _).trans_lt w.isLt
  rw [← BitVec.shiftLeft_ushiftRight, ← BitVec.toNat_inj, BitVec.toNat_shiftLeft, BitVec.toNat_ushiftRight,
    BitVec.toNat_ofNat, Nat.shiftRight_eq_div_pow, Nat.shiftLeft_eq, Nat.mod_eq_of_lt hle, Nat.mod_eq_of_lt hc]
  exact Nat.mul_left_inj (by positivity)

/-- Settles O6: each mask keeps the bits from 2, 28 or 0 up, so each match is a value of the word divided by a power of two. -/
theorem wordsDecodeByMatchAndMask : Obligations.WordsDecodeByMatchAndMask := by
  intro w
  have hinit : w &&& 0xFFFFFFFC#32 = 0x10000000#32 ↔ w.toNat / 2 ^ 2 = 0x4000000 :=
    and_highMask_eq_iff w 2 0x4000000 (by decide)
  have hinput : w &&& 0xF0000000#32 = 0x20000000#32 ↔ w.toNat / 2 ^ 28 = 2 :=
    and_highMask_eq_iff w 28 2 (by decide)
  have hhash : w &&& 0xFFFFFFFF#32 = 0x30000000#32 ↔ w.toNat / 2 ^ 0 = 0x30000000 :=
    and_highMask_eq_iff w 0 0x30000000 (by decide)
  rw [hinit, hinput, hhash, decodeWord_eq]
  refine ⟨?_, ?_, ?_, ?_, ?_⟩
  · split_ifs <;> simp <;> omega
  · split_ifs <;> simp <;> omega
  · split_ifs <;> simp <;> omega
  · intro v h
    rw [← varField_toNat]
    split_ifs at h
    cases h
    rw [code_ofCode]
  · intro n h
    rw [← argField_toNat]
    split_ifs at h
    cases h
    rfl

/-- Settles O7, from the decoder's tests on the word's value. -/
theorem illegalWordsAreNamed : Obligations.IllegalWordsAreNamed := by
  intro w
  rw [decodeWord_eq]
  refine ⟨?_, ?_, ?_⟩ <;> split_ifs <;> simp <;> omega

/-- Settles O8: the legal words are the encoder's own. -/
theorem writtenOutWordsDecode : Obligations.WrittenOutWordsDecode :=
  ⟨decodeWord_init .sha384, decodeWord_inputWord 64#28, decodeWord_hash, by decide, by decide⟩

/-! ## The pseudo-commands (R91, R92) -/

/-- The pieces are the data in order. -/
theorem pieces_flatten (n fuel : Nat) (data : List Byte) : (pieces n fuel data).flatten = data := by
  induction fuel generalizing data with
  | zero => simp [pieces]
  | succ fuel ih =>
    rw [pieces]
    split
    · simp
    · rw [List.flatten_cons, ih, List.take_append_drop]

/-- Where there is a cut for every byte, no piece is longer than n + 1 bytes. -/
theorem length_le_of_mem_pieces {n fuel : Nat} {data : List Byte} (hfuel : data.length ≤ fuel) :
    ∀ c ∈ pieces n fuel data, c.length ≤ n + 1 := by
  induction fuel generalizing data with
  | zero => simpa [pieces] using hfuel.trans (Nat.zero_le _)
  | succ fuel ih =>
    rw [pieces]
    split
    · next hfits => simpa using hfits
    · rw [List.forall_mem_cons]
      exact ⟨List.length_take_le _ _, ih (by rw [List.length_drop]; omega)⟩

/-- Data that fits is one piece. -/
theorem pieces_of_length_le {n fuel : Nat} {data : List Byte} (hfits : data.length ≤ n + 1) :
    pieces n fuel data = [data] := by
  cases fuel with
  | zero => rfl
  | succ fuel => rw [pieces, if_pos hfits]

/-- The payloads of the INPUT commands that data is cut into (R92). -/
def inputChunks (data : List Byte) : List (List Byte) := pieces (Config.nmax - 1) data.length data

theorem expandInput_eq (data : List Byte) : expandInput data = (inputChunks data).map Instr.input := rfl

theorem expandDigest_eq (v : Variant) (data : List Byte) : expandDigest v data = messageCommands v (inputChunks data) := rfl

theorem inputChunks_flatten (data : List Byte) : (inputChunks data).flatten = data := pieces_flatten _ _ _

theorem nmax_pred_succ : Config.nmax - 1 + 1 = Config.nmax := by rw [Config.nmax]; omega

/-- Each payload fits the field N (R12). -/
theorem length_le_of_mem_inputChunks {data c : List Byte} (hc : c ∈ inputChunks data) : c.length ≤ Config.nmax :=
  nmax_pred_succ ▸ length_le_of_mem_pieces le_rfl c hc

theorem inputChunks_of_length_le {data : List Byte} (hfits : data.length ≤ Config.nmax) : inputChunks data = [data] :=
  pieces_of_length_le (nmax_pred_succ.symm ▸ hfits)

/-- Settles O10: cutting keeps the data and its order, and leaves no piece longer than NMAX. -/
theorem pseudoCommandsExpand : Obligations.PseudoCommandsExpand :=
  ⟨fun data => ⟨inputChunks data, expandInput_eq data, inputChunks_flatten data,
    fun _ hc => length_le_of_mem_inputChunks hc, inputChunks_of_length_le⟩, fun _ _ => rfl⟩

/-! ## The responses of a step (R86, R88, R89) -/

/-- Settles O14: every command and every illegal word answers a next state, and an incomplete command is a fault. -/
theorem noStepIsRefused : Obligations.NoStepIsRefused := by
  intro s r
  cases hf : fetch s with
  | command i rest =>
    obtain ⟨t, ht, -⟩ := exec_cases i (consumeTo rest s)
    simp [step_command hf, ht]
  | illegal why rest => simp [step_illegal hf]
  | partialWord => simp [step, hf]
  | partialPayload => simp [step, hf]

@[simp] theorem afterInit_sent (v : Variant) (s : State) :
    (afterInit v s).sent = s.sent ++ [{ code := okCode, digest := [] }] := rfl

@[simp] theorem afterInput_sent (p : List Byte) (s : State) :
    (afterInput p s).sent = s.sent ++ [{ code := okCode, digest := [] }] := by
  simp [afterInput]

@[simp] theorem afterHash_sent (s : State) :
    (afterHash s).sent = s.sent ++ [{ code := okCode, digest := formatDigest s.var (absorbTail s).h }] := by
  simp [afterHash]

theorem afterHash_h (s : State) : (afterHash s).h = (absorbTail s).h := rfl

/-- The codes of R88. -/
theorem errorCode_cases (e : EngineError) : e.code = 0x01#8 ∨ e.code = 0x02#8 ∨ e.code = 0x03#8 := by
  cases e <;> decide

/-- The status byte, then d digest bytes (R89). -/
theorem digestResponse_bytes_length (code : Byte) (v : Variant) (cells : Vector Cell 8) :
    (Response.bytes { code := code, digest := formatDigest v cells }).length = 1 + v.digestBytes := by
  rw [Response.bytes, List.length_cons, formatDigest_length, Nat.add_comm]

/-- Settles O15: of the four next states of a step only HASH's has sent a digest, and an error has sent no 0x00. -/
theorem eachStepSendsExactlyOneResponse : Obligations.EachStepSendsExactlyOneResponse := by
  intro s t hstep
  rcases step_next_cases hstep with ⟨v, rest, hd, rfl⟩ | ⟨p, rest, hd, -, -, rfl⟩ | ⟨rest, hd, -, rfl⟩ |
    ⟨e, rest, -, rfl⟩
  · exact ⟨_, afterInit_sent v _, .inl rfl, by simp [hd], fun _ => rfl⟩
  · exact ⟨_, afterInput_sent p _, .inl rfl, by simp [hd], fun _ => rfl⟩
  · exact ⟨_, afterHash_sent _, .inl rfl, fun _ => ⟨by rw [afterHash_var, afterHash_h], afterHash_var _,
      digestResponse_bytes_length _ _ _⟩, fun hnot => absurd ⟨rfl, rest, hd⟩ hnot⟩
  · have hcode := errorCode_cases e
    refine ⟨_, raiseError_sent e _, .inr hcode, fun ⟨hok, _⟩ => ?_, fun _ => rfl⟩
    rw [show e.code = 0x00#8 from hok] at hcode
    exact absurd hcode (by decide)

/-! ## Running an encoded sequence of commands (R70, R80, R100) -/

theorem absorbAll_consumeTo (xs rest : List Byte) (s : State) :
    absorbAll xs (consumeTo rest s) = consumeTo rest (absorbAll xs s) := by
  induction xs generalizing s with
  | nil => rfl
  | cons x xs ih =>
    have hone : absorb x (consumeTo rest s) = consumeTo rest (absorb x s) := by
      by_cases hfull : (s.bufLen + 1#8).toNat = s.var.blockBytes
      · rw [absorb_full hfull, absorb_full (by simpa using hfull)]; rfl
      · rw [absorb_room hfull, absorb_room (by simpa using hfull)]; rfl
    rw [absorbAll_cons, absorbAll_cons, hone, ih]

theorem afterInput_consumeTo (p rest : List Byte) (s : State) :
    afterInput p (consumeTo rest s) = consumeTo rest (afterInput p s) :=
  congrArg (respond okCode []) (absorbAll_consumeTo p rest (countBytes p.length s))

theorem afterHash_consumeTo (rest : List Byte) (s : State) :
    afterHash (consumeTo rest s) = consumeTo rest (afterHash s) := by
  have htail : absorbTail (consumeTo rest s) = consumeTo rest (absorbTail s) := absorbAll_consumeTo _ rest s
  rw [afterHash, htail]
  rfl

/-- No command reads or writes the bytes after it (R74). -/
theorem exec_consumeTo {i : Instr} {s t : State} (rest : List Byte) (h : exec i s = .next t) :
    exec i (consumeTo rest s) = .next (consumeTo rest t) := by
  obtain ⟨t', ht', hcases⟩ := exec_cases i s
  obtain rfl : t = t' := by simpa [h] using ht'
  rcases hcases with ⟨v, rfl, rfl⟩ | ⟨p, rfl, ha, hfits, rfl⟩ | ⟨rfl, ha, rfl⟩ |
    ⟨e, rfl, ⟨rfl, ha, hi⟩ | ⟨rfl, ha, p, rfl, hover⟩⟩
  · rfl
  · rw [← afterInput_consumeTo]
    exact exec_input_ok ha hfits
  · rw [← afterHash_consumeTo]
    exact exec_hash_ok ha
  · cases i with
    | init v => exact absurd rfl (hi v)
    | input p => exact exec_input_inactive p ha
    | hash => exact exec_hash_inactive ha
  · exact exec_input_overflow ha hover

theorem exec_stream {i : Instr} {s t : State} (h : exec i s = .next t) : t.stream = s.stream := by
  have hsame : exec i s = .next (consumeTo s.stream t) := exec_consumeTo s.stream h
  have ht : t = consumeTo s.stream t := by simpa [h] using hsame
  rw [ht, consumeTo_stream]

/-- A step on a command's encoding runs the command. -/
theorem step_of_encode {i : Instr} (hwf : i.wellFormed = true) {s : State} {rest : List Byte}
    (hs : s.stream = encode i ++ rest) : step s = exec i (consumeTo rest s) :=
  step_command (by rw [fetch, hs, decodeOfEncodeGivesTheCommand i rest hwf])

/-- Stepping through the bytes of well-formed commands runs the commands. -/
theorem run_encodeAll {is : List Instr} (hwf : ∀ i ∈ is, i.wellFormed = true) {s : State} {after : List Byte}
    (hs : s.stream = encodeAll is ++ after) : Host.Core.run core is.length s = runAll is (consumeTo after s) := by
  induction is generalizing s with
  | nil =>
    have hafter : after = s.stream := hs.symm
    rw [hafter]
    rfl
  | cons i is ih =>
    rw [List.forall_mem_cons] at hwf
    have hbytes : s.stream = encode i ++ (encodeAll is ++ after) := by
      rw [hs, encodeAll, List.flatMap_cons, List.append_assoc]; rfl
    obtain ⟨t, ht, -⟩ := exec_cases i (consumeTo (encodeAll is ++ after) s)
    have hfirst : exec i (consumeTo after s) = .next (consumeTo after t) :=
      exec_consumeTo (s := consumeTo (encodeAll is ++ after) s) after ht
    rw [List.length_cons, run_next _ ((step_of_encode hwf.1 hbytes).trans ht), ih hwf.2 (exec_stream ht), runAll, hfirst]

/-! ## INIT, INPUTs and HASH (R104 to R106, R108, R111) -/

@[simp] theorem afterInit_var (v : Variant) (s : State) : (afterInit v s).var = v := rfl
@[simp] theorem afterInit_bufLen (v : Variant) (s : State) : (afterInit v s).bufLen = 0#8 := rfl
@[simp] theorem afterInit_len (v : Variant) (s : State) : (afterInit v s).len = 0#128 := rfl
@[simp] theorem afterInit_stream (v : Variant) (s : State) : (afterInit v s).stream = s.stream := rfl
@[simp] theorem afterInit_pending (v : Variant) (s : State) : (afterInit v s).pending = [] := by
  simp [afterInit, State.pending]

theorem runAll_append {is js : List Instr} {s t : State} (h : runAll is s = .next t) :
    runAll (is ++ js) s = runAll js t := by
  induction is generalizing s with
  | nil => cases h; rfl
  | cons i is ih =>
    obtain ⟨u, hu, -⟩ := exec_cases i s
    rw [runAll, hu] at h
    rw [List.cons_append, runAll, hu]
    exact ih h

/-- The state after a successful INPUT of each chunk. -/
def afterInputs (chunks : List (List Byte)) (s : State) : State :=
  { absorbAll chunks.flatten (countBytes chunks.flatten.length s) with
    sent := s.sent ++ List.replicate chunks.length { code := okCode, digest := [] } }

theorem afterInputs_nil (s : State) : afterInputs [] s = s := by
  simp [afterInputs, countBytes]

/-- One INPUT more absorbs its bytes before those of the later ones (R108). -/
theorem afterInputs_cons {p : List Byte} {s : State} (hfits : s.len.toNat + 8 * p.length ≤ s.var.lmax)
    (chunks : List (List Byte)) : afterInputs (p :: chunks) s = afterInputs chunks (afterInput p s) := by
  have hcount : countBytes chunks.flatten.length (afterInput p s) =
      respond okCode [] (absorbAll p (countBytes (p.length + chunks.flatten.length) s)) := by
    rw [← countBytes_countBytes _ hfits, absorbAll_countBytes]
    rfl
  have habsorb : absorbAll chunks.flatten (countBytes chunks.flatten.length (afterInput p s)) =
      respond okCode [] (absorbAll (p :: chunks).flatten (countBytes (p :: chunks).flatten.length s)) := by
    rw [hcount, absorbAll_respond, List.flatten_cons, List.length_append, absorbAll_append]
  rw [afterInputs, afterInputs, habsorb, afterInput_sent, List.length_cons, List.replicate_succ, List.append_assoc]
  rfl

theorem runAll_inputs {chunks : List (List Byte)} {s : State} (ha : s.status = .active)
    (hfits : s.len.toNat + 8 * chunks.flatten.length ≤ s.var.lmax) :
    runAll (chunks.map Instr.input) s = .next (afterInputs chunks s) := by
  induction chunks generalizing s with
  | nil => rw [afterInputs_nil]; rfl
  | cons p chunks ih =>
    rw [List.flatten_cons, List.length_append] at hfits
    have hp : s.len.toNat + 8 * p.length ≤ s.var.lmax := by omega
    have hlen : (afterInput p s).len.toNat = s.len.toNat + 8 * p.length := by
      rw [afterInput_len, countBytes_len_toNat hp]
    rw [List.map_cons, runAll, exec_input_ok ha hp, afterInputs_cons hp]
    exact ih (by rwa [afterInput_status]) (by rw [hlen, afterInput_var]; omega)

/-- A whole message and its tail, absorbed after INIT, are the padded message (R111). -/
theorem absorbTail_afterMessage {v : Variant} {m : List Byte} (hfits : 8 * m.length ≤ v.lmax) (s : State) :
    absorbTail (absorbAll m (countBytes m.length (afterInit v s))) =
      absorbAll (paddedMessage v m) (countBytes m.length (afterInit v s)) := by
  have hlen : (countBytes m.length (afterInit v s)).len.toNat = 8 * m.length := by
    rw [countBytes_len_toNat (by simpa using hfits)]
    simp
  have hbufLen : (absorbAll m (countBytes m.length (afterInit v s))).bufLen.toNat = m.length % v.blockBytes := by
    rw [absorbAll_bufLen_toNat m (by simpa using blockBytes_pos v)]
    simp
  rw [absorbTail, hbufLen, absorbAll_len, hlen, absorbAll_var, countBytes_var, afterInit_var, paddedMessage,
    absorbAll_append]

/-- The digest of a message absorbed after INIT (R111). -/
theorem formatDigest_absorbTail {v : Variant} {m : List Byte} (hfits : 8 * m.length ≤ v.lmax) (s : State) :
    formatDigest v (absorbTail (absorbAll m (countBytes m.length (afterInit v s)))).h = digestOf v m := by
  have hblocks := (absorbAll_consumes (paddedMessage v m) (countBytes m.length (afterInit v s)) (blockBytes_pos v)).1
  rw [absorbTail_afterMessage hfits, hblocks, pending_countBytes, afterInit_pending, List.nil_append]
  rfl

/-- INIT, INPUTs and HASH on a message of at most LMAX bits complete (R111). -/
theorem runAll_messageCommands {v : Variant} {chunks : List (List Byte)} (hfits : 8 * chunks.flatten.length ≤ v.lmax)
    (s : State) : runAll (messageCommands v chunks) s = .next (afterHash (afterInputs chunks (afterInit v s))) := by
  have hinputs : runAll (chunks.map Instr.input) (afterInit v s) = .next (afterInputs chunks (afterInit v s)) :=
    runAll_inputs rfl (by simpa using hfits)
  have hactive : (afterInputs chunks (afterInit v s)).status = .active := absorbAll_status _ _
  rw [messageCommands, runAll, exec_init]
  calc runAll (chunks.map Instr.input ++ [Instr.hash]) (afterInit v s)
    _ = runAll [Instr.hash] (afterInputs chunks (afterInit v s)) := runAll_append hinputs
    _ = .next (afterHash (afterInputs chunks (afterInit v s))) := by rw [runAll, exec_hash_ok hactive]; rfl

@[simp] theorem afterInputs_var (chunks : List (List Byte)) (s : State) : (afterInputs chunks s).var = s.var :=
  absorbAll_var _ _

@[simp] theorem afterInputs_stream (chunks : List (List Byte)) (s : State) : (afterInputs chunks s).stream = s.stream :=
  absorbAll_stream _ _

@[simp] theorem afterHash_stream (s : State) : (afterHash s).stream = s.stream := absorbTail_stream s

/-- The tail of a message that came in chunks: no register depends on the responses sent between them. -/
theorem absorbTail_afterInputs_h (chunks : List (List Byte)) (s : State) :
    (absorbTail (afterInputs chunks s)).h =
      (absorbTail (absorbAll chunks.flatten (countBytes chunks.flatten.length s))).h := by
  have hsame : (afterInputs chunks s).SameEngine (absorbAll chunks.flatten (countBytes chunks.flatten.length s)) :=
    ⟨rfl, rfl, rfl, rfl, rfl, rfl, rfl, rfl⟩
  exact hsame.absorbTail.h

/-- The responses to INIT, INPUTs and HASH (R88, R89, R111). -/
theorem afterMessage_sent {v : Variant} {chunks : List (List Byte)} (hfits : 8 * chunks.flatten.length ≤ v.lmax)
    (s : State) : (afterHash (afterInputs chunks (afterInit v s))).sent =
      s.sent ++ List.replicate (chunks.length + 1) { code := okCode, digest := [] } ++
        [{ code := okCode, digest := digestOf v chunks.flatten }] := by
  have hdigest : formatDigest v (absorbTail (afterInputs chunks (afterInit v s))).h = digestOf v chunks.flatten := by
    rw [absorbTail_afterInputs_h, formatDigest_absorbTail hfits]
  rw [afterHash_sent, afterInputs_var, afterInit_var, hdigest, List.replicate_succ]
  simp [afterInputs]

/-- The commands for a message have an encoding when its chunks fit the field N (R12). -/
theorem messageCommands_wellFormed {v : Variant} {chunks : List (List Byte)}
    (hchunks : ∀ c ∈ chunks, c.length ≤ Config.nmax) : ∀ i ∈ messageCommands v chunks, i.wellFormed = true := by
  intro i hi
  rcases List.mem_cons.mp hi with rfl | hi
  · rfl
  · rcases List.mem_append.mp hi with hinput | hhash
    · obtain ⟨c, hc, rfl⟩ := List.mem_map.mp hinput
      exact decide_eq_true (hchunks c hc)
    · obtain rfl := List.mem_singleton.mp hhash
      rfl

/-- The host that sends the commands for a message gets to the state after them, whatever follows (R111). -/
theorem run_messageCommands {v : Variant} {chunks : List (List Byte)} (hfits : 8 * chunks.flatten.length ≤ v.lmax)
    (hchunks : ∀ c ∈ chunks, c.length ≤ Config.nmax) {s : State} {after : List Byte}
    (hs : s.stream = encodeAll (messageCommands v chunks) ++ after) :
    Host.Core.run core (messageCommands v chunks).length s =
      .next (afterHash (afterInputs chunks (afterInit v (consumeTo after s)))) := by
  rw [run_encodeAll (messageCommands_wellFormed hchunks) hs, runAll_messageCommands hfits]
  rfl

/-- Settles O36: DIGEST is INIT, the INPUTs that its data is cut into, and HASH. -/
theorem digestPseudoCommandReturnsTheDigest : Obligations.DigestPseudoCommandReturnsTheDigest := by
  intro s v data hfits hs
  rw [expandDigest_eq] at hs ⊢
  have hdata : 8 * (inputChunks data).flatten.length ≤ v.lmax := by rwa [inputChunks_flatten]
  refine ⟨_, run_messageCommands hdata (fun _ hc => length_le_of_mem_inputChunks hc) (after := [])
    (by rw [hs, List.append_nil]), by simp, ?_⟩
  rw [afterMessage_sent hdata, List.getLast?_concat, inputChunks_flatten]
  rfl

end Sys2Proof.Machine
end

section
/-! SUPPORT and PROOFS. The accumulator (spec/40_accumulator.md): the function computed (R111), streaming equivalence (R108),
the step (R100), INIT (R104), INPUT (R101, R105, R107), the tail (R131), and HASH (R106, R109, R110, R112). -/

namespace Sys2Proof.Machine

/-! ## The function computed (R111) -/

/-- Settles O35: the run through the encoded commands is known; its responses are those of the message. -/
theorem engineComputesTheDigestOfAnyChunking : Obligations.EngineComputesTheDigestOfAnyChunking := by
  intro s v chunks after hfits hchunks hs
  have hlength : (messageCommands v chunks).length = chunks.length + 2 := by simp [messageCommands]
  have hrun := run_messageCommands hfits hchunks hs
  rw [hlength] at hrun
  exact ⟨_, hrun, by simp, rfl, afterMessage_sent hfits _⟩

/-! ## Streaming equivalence (R108) -/

/-- The registers after INPUTs depend on the chunks through their concatenation alone. -/
theorem afterInputs_sameEngine {cs ds : List (List Byte)} (h : cs.flatten = ds.flatten) (s : State) :
    (afterInputs cs s).SameEngine (afterInputs ds s) := by
  rw [afterInputs, afterInputs, h]
  exact ⟨rfl, rfl, rfl, rfl, rfl, rfl, rfl, rfl⟩

theorem afterInputs_singleton {p : List Byte} {s : State} (hfits : s.len.toNat + 8 * p.length ≤ s.var.lmax) :
    afterInputs [p] s = afterInput p s := by
  rw [afterInputs_cons hfits, afterInputs_nil]

theorem afterInput_len_toNat {p : List Byte} {s : State} (hfits : s.len.toNat + 8 * p.length ≤ s.var.lmax) :
    (afterInput p s).len.toNat = s.len.toNat + 8 * p.length := by
  rw [afterInput_len, countBytes_len_toNat hfits]

/-- What an INPUT of n bytes after one of p is checked against: the sum (R105). -/
theorem afterInput_total {p : List Byte} {s : State} (hfits : s.len.toNat + 8 * p.length ≤ s.var.lmax) (n : Nat) :
    (afterInput p s).len.toNat + 8 * n = s.len.toNat + 8 * (p.length + n) := by
  rw [afterInput_len_toNat hfits]
  ring

/-- Where the sum of two payloads fits, each INPUT passes its length check (R105). -/
theorem inputs_fit {p q : List Byte} {s : State} (hfits : s.len.toNat + 8 * (p.length + q.length) ≤ s.var.lmax) :
    s.len.toNat + 8 * p.length ≤ s.var.lmax ∧
    (afterInput p s).len.toNat + 8 * q.length ≤ (afterInput p s).var.lmax := by
  have hp : s.len.toNat + 8 * p.length ≤ s.var.lmax := by omega
  exact ⟨hp, by rwa [afterInput_total hp, afterInput_var]⟩

/-- Two INPUTs end in the registers of one INPUT of both payloads when the sum fits. -/
theorem afterInput_afterInput_sameEngine {p q : List Byte} {s : State}
    (hfits : s.len.toNat + 8 * (p.length + q.length) ≤ s.var.lmax) :
    (afterInput q (afterInput p s)).SameEngine (afterInput (p ++ q) s) := by
  obtain ⟨hp, hq⟩ := inputs_fit hfits
  rw [← afterInputs_singleton hq, ← afterInputs_cons hp, ← afterInputs_singleton (by rwa [List.length_append])]
  exact afterInputs_sameEngine (by simp) s

/-- Outside ACTIVE every command but INIT raises InvalidEngineState (R103, R222). -/
theorem exec_inactive {i : Instr} {s : State} (hs : s.status ≠ .active) (hi : ∀ v, i ≠ .init v) :
    exec i s = .next (raiseError .invalidEngineState s) := by
  cases i with
  | init v => exact absurd rfl (hi v)
  | input p => exact exec_input_inactive p hs
  | hash => exact exec_hash_inactive hs

/-- An ACTIVE engine records the error that faults it (R224). -/
theorem raiseError_err_of_active (e : EngineError) {s : State} (ha : s.status = .active) :
    (raiseError e s).err = e.code := by
  simp [errAfter, ha]

/-- A FAULTED engine keeps the error it has on record (R224). -/
theorem raiseError_err_of_faulted (e : EngineError) {s : State} (hf : s.status = .faulted) :
    (raiseError e s).err = s.err := by
  simp [errAfter, hf]

/-- Two INPUTs whose sum exceeds LMAX end FAULTED with the overflow on record, whichever of the two exceeds it. -/
theorem exec_inputs_overflow {p q : List Byte} {s : State} (ha : s.status = .active)
    (hover : s.var.lmax < s.len.toNat + 8 * (p.length + q.length)) :
    ∃ t u, exec (.input p) s = .next t ∧ exec (.input q) t = .next u ∧ u.status = .faulted ∧ u.err = 0x01#8 := by
  by_cases hp : s.len.toNat + 8 * p.length ≤ s.var.lmax
  · have ha' : (afterInput p s).status = .active := by rwa [afterInput_status]
    have hq : (afterInput p s).var.lmax < (afterInput p s).len.toNat + 8 * q.length := by
      rwa [afterInput_total hp, afterInput_var]
    exact ⟨_, _, exec_input_ok ha hp, exec_input_overflow ha' hq, rfl, raiseError_err_of_active _ ha'⟩
  · exact ⟨_, _, exec_input_overflow ha (Nat.lt_of_not_le hp), exec_input_inactive q (by simp), rfl,
      by rw [raiseError_err_of_faulted _ rfl, raiseError_err_of_active _ ha]; rfl⟩

/-- INPUTs do not end ACTIVE where they did not start so, nor where their sum exceeds LMAX: the one that exceeds it faults the
engine, and INPUT does not leave FAULTED. -/
theorem runAll_inputs_not_active {chunks : List (List Byte)} {s : State}
    (h : s.status = .active → s.len.toNat ≤ s.var.lmax ∧ s.var.lmax < s.len.toNat + 8 * chunks.flatten.length) :
    ∃ t, runAll (chunks.map Instr.input) s = .next t ∧ t.status ≠ .active := by
  induction chunks generalizing s with
  | nil =>
    refine ⟨s, rfl, fun ha => ?_⟩
    obtain ⟨hle, hlt⟩ := h ha
    rw [List.flatten_nil, List.length_nil] at hlt
    omega
  | cons p chunks ih =>
    obtain ⟨u, hu, hnext⟩ : ∃ u, exec (.input p) s = .next u ∧ (u.status = .active →
        u.len.toNat ≤ u.var.lmax ∧ u.var.lmax < u.len.toNat + 8 * chunks.flatten.length) := by
      by_cases ha : s.status = .active
      · by_cases hp : s.len.toNat + 8 * p.length ≤ s.var.lmax
        · refine ⟨_, exec_input_ok ha hp, fun _ => ?_⟩
          have hover := (h ha).2
          rw [List.flatten_cons, List.length_append] at hover
          rw [afterInput_total hp, afterInput_len_toNat hp, afterInput_var]
          exact ⟨hp, hover⟩
        · exact ⟨_, exec_input_overflow ha (Nat.lt_of_not_le hp), by simp⟩
      · exact ⟨_, exec_input_inactive p ha, by simp⟩
    obtain ⟨t, ht, hstatus⟩ := ih hnext
    exact ⟨t, by rw [List.map_cons, runAll, hu]; exact ht, hstatus⟩

/-- The response to HASH after INIT and INPUTs: the digest of the message, or InvalidEngineState where it exceeds LMAX. -/
def hashResponse (v : Variant) (m : List Byte) : Response :=
  if 8 * m.length ≤ v.lmax then { code := okCode, digest := digestOf v m }
  else { code := EngineError.invalidEngineState.code, digest := [] }

/-- INIT, INPUTs and HASH on a message of any length end in that response. -/
theorem runAll_messageCommands_getLast? (v : Variant) (chunks : List (List Byte)) (s : State) :
    ∃ t, runAll (messageCommands v chunks) s = .next t ∧ t.sent.getLast? = some (hashResponse v chunks.flatten) := by
  by_cases hfits : 8 * chunks.flatten.length ≤ v.lmax
  · refine ⟨_, runAll_messageCommands hfits s, ?_⟩
    rw [afterMessage_sent hfits, List.getLast?_concat, hashResponse, if_pos hfits]
  · obtain ⟨t, ht, hstatus⟩ : ∃ t, runAll (chunks.map Instr.input) (afterInit v s) = .next t ∧ t.status ≠ .active :=
      runAll_inputs_not_active fun _ => by simpa using hfits
    refine ⟨raiseError .invalidEngineState t, ?_, ?_⟩
    · rw [messageCommands, runAll, exec_init]
      calc runAll (chunks.map Instr.input ++ [Instr.hash]) (afterInit v s)
        _ = runAll [Instr.hash] t := runAll_append ht
        _ = .next (raiseError .invalidEngineState t) := by rw [runAll, exec_hash_inactive hstatus]; rfl
    · rw [raiseError_sent, List.getLast?_concat, hashResponse, if_neg hfits]

/-- Settles O28: registers and responses depend on the concatenation of the payloads alone. -/
theorem streamingEquivalence : Obligations.StreamingEquivalence := by
  refine ⟨fun s p q ha hfits => ?fits, fun s p q ha hover => ?overflows, fun s v cs ds hflat => ?chunkings⟩
  case fits =>
    obtain ⟨hp, hq⟩ := inputs_fit hfits
    exact ⟨_, _, _, exec_input_ok ha hp, exec_input_ok (by rwa [afterInput_status]) hq,
      exec_input_ok ha (by rwa [List.length_append]), afterInput_afterInput_sameEngine hfits, by simpa using ha⟩
  case overflows =>
    obtain ⟨t, u, ht, hu, hstatus, herr⟩ := exec_inputs_overflow ha hover
    exact ⟨t, u, _, ht, hu, exec_input_overflow ha (by rwa [List.length_append]), hstatus, herr, rfl,
      raiseError_err_of_active .lengthOverflow ha⟩
  case chunkings =>
    obtain ⟨t, ht, htlast⟩ := runAll_messageCommands_getLast? v cs s
    obtain ⟨u, hu, hulast⟩ := runAll_messageCommands_getLast? v ds s
    exact ⟨t, u, ht, hu, by rw [htlast, hulast, hflat]⟩

/-! ## The step (R100) -/

/-- Settles O11. -/
theorem stepExecutesTheDecodedCommand : Obligations.StepExecutesTheDecodedCommand :=
  fun _ _ _ hdecode => step_command hdecode

/-- A command read from a word and just the payload the word announces is read so whatever follows, and leaves that (R83,
R86). -/
theorem decodeStream_append_of_payloadLength {w : CommandWord} {payload rest : List Byte} {i : Instr}
    (hlength : payload.length = payloadLength w) (h : decodeStream (beBytes 4 w.toNat ++ payload) = .command i rest)
    (after : List Byte) : decodeStream (beBytes 4 w.toNat ++ payload ++ after) = .command i after := by
  rw [decodeStream_word] at h
  rw [List.append_assoc, decodeStream_word]
  rw [payloadLength] at hlength
  cases hw : decodeWord w with
  | init v =>
    simp only [hw] at h hlength ⊢
    cases h
    rw [List.eq_nil_of_length_eq_zero hlength, List.nil_append]
  | input n =>
    simp only [hw] at h hlength ⊢
    obtain ⟨p, rfl, hp, hsplit⟩ := takePayload_eq_command_iff.mp h
    obtain rfl : payload = p := by
      rw [hsplit, List.length_append, hp] at hlength
      rw [hsplit, List.eq_nil_of_length_eq_zero (by omega : rest.length = 0), List.append_nil]
    exact takePayload_eq_command_iff.mpr ⟨payload, rfl, hp, rfl⟩
  | hash =>
    simp only [hw] at h hlength ⊢
    cases h
    rw [List.eq_nil_of_length_eq_zero hlength, List.nil_append]
  | illegal why =>
    simp only [hw] at h
    cases h

theorem decodeTableWord_eq_some_iff {nbits w : Nat} {i : Instr} :
    decodeTableWord nbits w = some i ↔ ∃ rest, decodeStream (tableBytes nbits w) = .command i rest := by
  rw [decodeTableWord]
  cases decodeStream (tableBytes nbits w) <;> simp

/-- The bytes of an opcode-table word are read as its command whatever follows them (log entry 9). -/
theorem decodeStream_tableBytes_append {nbits w : Nat} {i : Instr} (h : decodeTableWord nbits w = some i)
    (after : List Byte) : decodeStream (tableBytes nbits w ++ after) = .command i after := by
  obtain ⟨rest, hdecode⟩ := decodeTableWord_eq_some_iff.mp h
  exact decodeStream_append_of_payloadLength (by rw [List.length_map, List.length_range]) hdecode after

/-- Settles O9: the step consumes just the placed bytes. -/
theorem placedTableWordRuns : Obligations.PlacedTableWordRuns := by
  intro s nbits w i h
  have hfetch : fetch (s.withFetchWord nbits w) = .command i s.stream := decodeStream_tableBytes_append h s.stream
  rw [step_command hfetch, State.withFetchWord, consumeTo_placeAtHead]

/-! ## INIT (R104, R193 to R197) -/

@[simp] theorem afterInit_h (v : Variant) (s : State) : (afterInit v s).h = ivCells v := rfl

/-- Settles O22: INIT writes the words of the configuration table. -/
theorem initWritesTheInitialHashValues : Obligations.InitWritesTheInitialHashValues := by
  intro s
  refine ⟨⟨_, exec_init _ s, ?_⟩, ⟨_, exec_init _ s, ?_⟩, ⟨_, exec_init _ s, ?_⟩, ⟨_, exec_init _ s, ?_⟩⟩ <;>
    rw [afterInit_h] <;> decide

/-- Settles O23. -/
theorem initDiscardsAllEarlierState : Obligations.InitDiscardsAllEarlierState :=
  fun v s t hstream hsent => ⟨_, _, exec_init v s, exec_init v t, afterInit_sameToHost v hstream hsent⟩

/-! ## INPUT (R101, R105, R107) -/

/-- Settles O24: counting the payload changes LEN alone, and absorbing it consumes every full block. -/
theorem inputConsumesEveryFullBlock : Obligations.InputConsumesEveryFullBlock := by
  intro s payload hinv ha hfits
  have hroom := hinv.bufLen_lt ha
  have hB := blockBytes_le s.var
  have htotal : (s.pending ++ payload).length = s.bufLen.toNat + payload.length := by
    rw [List.length_append, pending_length (by omega)]
  obtain ⟨hh, hbufLen, hpending⟩ := absorbAll_consumes payload (countBytes payload.length s) hroom
  rw [pending_countBytes, countBytes_var, htotal] at hh hbufLen hpending
  exact ⟨_, exec_input_ok ha hfits, afterInput_len_toNat hfits, hh, hbufLen, hpending, afterInput_var _ s,
    by rwa [afterInput_status], afterInput_err _ s, by simp [afterInput], afterInput_sent _ s⟩

theorem afterInput_nil (s : State) : afterInput [] s = respond okCode [] s := by
  simp [afterInput, countBytes]

/-- Settles O26: nothing is counted or absorbed, and LEN is within LMAX already. -/
theorem zeroLengthInputChangesNothing : Obligations.ZeroLengthInputChangesNothing := by
  refine fun s hinv => ⟨fun ha => ?_, fun hs => exec_input_inactive [] hs⟩
  have hfits : s.len.toNat + 8 * ([] : List Byte).length ≤ s.var.lmax := hinv.widths.2
  rw [exec_input_ok ha hfits, afterInput_nil]
  rfl

/-! ## The tail (R131, R133) -/

/-- Settles O41, from the closed forms of k. -/
theorem tailCompletesOneOrTwoBlocks : Obligations.TailCompletesOneOrTwoBlocks := by
  refine ⟨fun v r L hr => ?_, fun s hroom => (absorbTail_spec s hroom).2⟩
  rw [pad_blocks v r L hr, padZeros_eq v r hr]
  refine ⟨fun hone => ?_, fun htwo => ?_⟩
  · rw [if_pos hone, if_pos hone]
    exact ⟨rfl, rfl⟩
  · rw [if_neg (Nat.not_le_of_lt htwo), if_neg (Nat.not_le_of_lt htwo)]
    exact ⟨rfl, rfl⟩

/-! ## HASH (R106, R109, R110, R112) -/

/-- Settles O29: HASH is the tail, then the digest of what the tail leaves in H. -/
theorem hashCompressesTheTailAndSendsTheDigest : Obligations.HashCompressesTheTailAndSendsTheDigest := by
  intro s hinv ha
  obtain ⟨hh, hbufLen⟩ := absorbTail_spec s (hinv.bufLen_lt ha)
  exact ⟨_, exec_hash_ok ha, hh, afterHash_sent s, rfl, hbufLen, afterHash_var s, afterHash_err s, afterHash_len s,
    afterHash_stream s⟩

/-- Settles O31: HASH leaves ACTIVE for FINALIZED, and there only INIT is accepted. -/
theorem secondHashFails : Obligations.SecondHashFails :=
  fun s ha => ⟨_, exec_hash_ok ha, afterHash_status s, fun _ hi =>
    ⟨_, exec_inactive (by simp) hi, rfl, by simp [errAfter, EngineError.code], rfl⟩⟩

/-- Settles O33: the digest has d bytes. -/
theorem digestLengthIsFixedByTheVariant : Obligations.DigestLengthIsFixedByTheVariant := by
  refine fun s ha => ⟨_, _, exec_hash_ok ha, afterHash_sent s, ?_⟩
  rw [formatDigest_length]
  cases s.var <;> rfl

theorem compressBlocks_one {v : Variant} {xs : List Byte} (h : xs.length = v.blockBytes) (cells : Vector Cell 8) :
    compressBlocks v 1 cells xs = compressCells v cells xs := by
  rw [compressBlocks, compressBlocks, List.take_of_length_le h.le]

theorem compressBlocks_two {v : Variant} {xs : List Byte} (h : xs.length = 2 * v.blockBytes) (cells : Vector Cell 8) :
    compressBlocks v 2 cells xs =
      compressCells v (compressCells v cells (xs.take v.blockBytes)) (xs.drop v.blockBytes) := by
  rw [compressBlocks, compressBlocks_one (by rw [List.length_drop]; omega)]

/-- Pending bytes and tail are one block or two (R131). -/
theorem pending_append_pad_length {s : State} (hroom : s.bufLen.toNat < s.var.blockBytes) :
    (s.pending ++ pad s.var s.bufLen.toNat s.len.toNat).length =
      if s.bufLen.toNat + 1 + s.var.lenBytes ≤ s.var.blockBytes then s.var.blockBytes else 2 * s.var.blockBytes := by
  have hB := blockBytes_le s.var
  rw [List.length_append, pending_length (by omega), pad_blocks s.var _ _ hroom]

/-- Where marker and length field fit behind the pending bytes, the tail is absorbed by one compression (R110). -/
theorem absorbTail_h_of_one_block {s : State} (hone : s.bufLen.toNat + 1 + s.var.lenBytes ≤ s.var.blockBytes) :
    (absorbTail s).h = compressCells s.var s.h (s.pending ++ pad s.var s.bufLen.toNat s.len.toNat) := by
  have hroom : s.bufLen.toNat < s.var.blockBytes := by omega
  have hlength := pending_append_pad_length hroom
  rw [if_pos hone] at hlength
  rw [(absorbTail_spec s hroom).1, pad_blocks s.var _ _ hroom, if_pos hone, Nat.div_self (blockBytes_pos _),
    compressBlocks_one hlength]

/-- Where they do not fit, by two compressions (R110). -/
theorem absorbTail_h_of_two_blocks {s : State} (hroom : s.bufLen.toNat < s.var.blockBytes)
    (htwo : s.var.blockBytes < s.bufLen.toNat + 1 + s.var.lenBytes) :
    (absorbTail s).h = compressCells s.var
      (compressCells s.var s.h ((s.pending ++ pad s.var s.bufLen.toNat s.len.toNat).take s.var.blockBytes))
      ((s.pending ++ pad s.var s.bufLen.toNat s.len.toNat).drop s.var.blockBytes) := by
  have hnot := Nat.not_le_of_lt htwo
  have hlength := pending_append_pad_length hroom
  rw [if_neg hnot] at hlength
  rw [(absorbTail_spec s hroom).1, pad_blocks s.var _ _ hroom, if_neg hnot, Nat.mul_div_cancel _ (blockBytes_pos _),
    compressBlocks_two hlength]

/-- Settles O32: the border is where B - 1 - Lb bytes are pending. -/
theorem hashCompressesOneOrTwoBlocks : Obligations.HashCompressesOneOrTwoBlocks := by
  refine fun s hinv ha => ⟨_, exec_hash_ok ha, fun hfew => ?_, fun hmany => ?_⟩
  · refine absorbTail_h_of_one_block ?_
    cases hv : s.var <;> simp [hv, Variant.lenBytes, Variant.lenBits, Variant.blockBytes, Variant.width] at hfew ⊢ <;> omega
  · refine absorbTail_h_of_two_blocks (hinv.bufLen_lt ha) ?_
    cases hv : s.var <;> simp [hv, Variant.lenBytes, Variant.lenBits, Variant.blockBytes, Variant.width] at hmany ⊢ <;> omega

/-- The tail of the empty message is a block by itself (R109). -/
theorem pad_zero_length (v : Variant) (L : Nat) : (pad v 0 L).length = v.blockBytes := by
  rw [pad_length]
  cases v <;> rfl

/-- The digest of the empty message is one compression of the initial state (R109). -/
theorem digestOf_nil (v : Variant) : digestOf v [] = formatDigest v (compressCells v (ivCells v) (pad v 0 0)) := by
  have hpadded : paddedMessage v [] = pad v 0 0 := by simp [paddedMessage]
  rw [digestOf, hpadded, pad_zero_length, Nat.div_self (blockBytes_pos v), compressBlocks_one (pad_zero_length v 0)]

/-- Settles O34: INIT and HASH alone are the commands of a message in no chunks. -/
theorem emptyMessageIsOneBlock : Obligations.EmptyMessageIsOneBlock := by
  intro v s
  have hfits : 8 * ([] : List (List Byte)).flatten.length ≤ v.lmax := Nat.zero_le _
  refine ⟨pad_zero_length v 0, _, runAll_messageCommands hfits s, ?_⟩
  rw [afterMessage_sent hfits, List.getLast?_concat, List.flatten_nil, digestOf_nil]
  rfl

end Sys2Proof.Machine
end

section
/-! SUPPORT and PROOFS. The fewest zero bytes, and the length field (spec/41_padding.md R130, R132). -/

namespace Sys2Proof.Machine

theorem padZeros_lt (v : Variant) (r : Nat) : padZeros v r < v.blockBytes :=
  Nat.mod_lt _ (blockBytes_pos v)

/-- Partial block, marker, zeros and length field are a whole number of blocks (R130). -/
theorem blockBytes_dvd_padded (v : Variant) (r : Nat) : v.blockBytes ∣ r + 1 + v.lenBytes + padZeros v r := by
  have hrem : (r + 1 + v.lenBytes) % v.blockBytes ≤ v.blockBytes := (Nat.mod_lt _ (blockBytes_pos v)).le
  rw [Nat.dvd_iff_mod_eq_zero, padZeros, Nat.add_mod_mod, ← Nat.mod_add_mod, Nat.add_sub_cancel' hrem, Nat.mod_self]

/-- Zero counts that complete a block agree modulo B, and k is below B, so no other is less (R130). -/
theorem padZeros_le_of_dvd {v : Variant} {r j : Nat} (h : v.blockBytes ∣ r + 1 + v.lenBytes + j) : padZeros v r ≤ j := by
  have hcong : padZeros v r ≡ j [MOD v.blockBytes] :=
    Nat.ModEq.add_left_cancel' (r + 1 + v.lenBytes)
      ((Nat.modEq_zero_iff_dvd.mpr (blockBytes_dvd_padded v r)).trans (Nat.modEq_zero_iff_dvd.mpr h).symm)
  calc padZeros v r = padZeros v r % v.blockBytes := (Nat.mod_eq_of_lt (padZeros_lt v r)).symm
    _ = j % v.blockBytes := hcong
    _ ≤ j := Nat.mod_le _ _

theorem lmax_lt_lenField (v : Variant) : v.lmax < 256 ^ v.lenBytes := by cases v <;> decide

/-- Settles O40: the marker is always there, k is the least zero count, and L fits the field (R135). -/
theorem tailIsMarkerFewestZerosAndLength : Obligations.TailIsMarkerFewestZerosAndLength := by
  intro v r L _ hL
  have htotal (j : Nat) : r + 1 + j + v.lenBytes = r + 1 + v.lenBytes + j := by omega
  refine ⟨padZeros v r, beBytes v.lenBytes L, rfl, ?_, fun j hj hwhole => ?_, beBytes_length _ _,
    beWord_beBytes (hL.trans_lt (lmax_lt_lenField v))⟩
  · rw [htotal]
    exact Nat.mod_eq_zero_of_dvd (blockBytes_dvd_padded v r)
  · rw [htotal] at hwhole
    exact Nat.not_le_of_lt hj (padZeros_le_of_dvd (Nat.dvd_of_mod_eq_zero hwhole))

end Sys2Proof.Machine
end

section
/-! SUPPORT and PROOFS. The recurrence of the schedule (spec/42_scheduler.md R156). -/

namespace Sys2Proof.Machine

theorem sixteen_le_rounds (ww : Width) : 16 ≤ ww.rounds := by cases ww <;> decide

/-- The last word put in front is the one the recurrence gives from all the words before it. -/
theorem extendSchedule_succ (ww : Width) (k : Nat) (newest : List (BitVec ww.bits)) :
    extendSchedule ww (k + 1) newest =
      nextScheduleWord ww (extendSchedule ww k newest) :: extendSchedule ww k newest := by
  induction k generalizing newest with
  | zero => rfl
  | succ k ih => exact ih (nextScheduleWord ww newest :: newest)

theorem drop_extendSchedule_add (ww : Width) (j k : Nat) (newest : List (BitVec ww.bits)) :
    (extendSchedule ww (k + j) newest).drop j = extendSchedule ww k newest := by
  induction j with
  | zero => rfl
  | succ j ih => rw [← Nat.add_assoc, extendSchedule_succ, List.drop_succ_cons, ih]

/-- A schedule word is final once computed: W[j] can be read from the words after any n steps that reach it (R156). -/
theorem schedule_getD {ww : Width} {n j : Nat} (blk : List Byte) (hn : n + 16 ≤ ww.rounds) (hj : j < n + 16) :
    (schedule ww blk).getD j 0 = (extendSchedule ww n (parseBlock ww blk).reverse).getD (n + 15 - j) 0 := by
  have hlength : (extendSchedule ww (ww.rounds - 16) (parseBlock ww blk).reverse).length = ww.rounds := by
    rw [extendSchedule_length, List.length_reverse, parseBlock_length]
    omega
  have hdrop : extendSchedule ww n (parseBlock ww blk).reverse =
      (extendSchedule ww (ww.rounds - 16) (parseBlock ww blk).reverse).drop (ww.rounds - 16 - n) := by
    rw [← drop_extendSchedule_add ww (ww.rounds - 16 - n), Nat.add_sub_cancel' (by omega)]
  rw [hdrop, schedule, List.getD_reverse j (by omega), hlength, List.getD_eq_getElem?_getD, List.getD_eq_getElem?_getD,
    List.getElem?_drop, show ww.rounds - 1 - j = ww.rounds - 16 - n + (n + 15 - j) by omega]

/-- The first 16 words are those after no step (R156). -/
theorem schedule_getD_of_lt_sixteen (ww : Width) (blk : List Byte) {t : Nat} (ht : t < 16) :
    (schedule ww blk).getD t 0 = (parseBlock ww blk).getD t 0 := by
  rw [schedule_getD blk (sixteen_le_rounds ww) ht, extendSchedule,
    List.getD_reverse _ (by rw [parseBlock_length]; omega), parseBlock_length, show 16 - 1 - (0 + 15 - t) = t by omega]

/-- W[t] is computed from the t words after t - 16 steps (R156). -/
theorem schedule_getD_eq_nextScheduleWord {ww : Width} (blk : List Byte) {t : Nat} (h16 : 16 ≤ t) (ht : t < ww.rounds) :
    (schedule ww blk).getD t 0 =
      nextScheduleWord ww (extendSchedule ww (t - 16) (parseBlock ww blk).reverse) := by
  rw [schedule_getD (n := t - 16 + 1) blk (by omega) (by omega), show t - 16 + 1 + 15 - t = 0 by omega,
    extendSchedule_succ, List.getD_cons_zero]

/-- The word i places behind the next one, W[t]. -/
theorem schedule_getD_sub {ww : Width} (blk : List Byte) {t i : Nat} (h16 : 16 ≤ t) (ht : t < ww.rounds) (hi : i < 16) :
    (schedule ww blk).getD (t - (i + 1)) 0 =
      (extendSchedule ww (t - 16) (parseBlock ww blk).reverse).getD i 0 := by
  rw [schedule_getD (n := t - 16) blk (by omega) (by omega), show t - 16 + 15 - (t - (i + 1)) = i by omega]

/-- Settles O49: every word but the first 16 is the next word after the t words before it. -/
theorem scheduleFollowsTheRecurrence : Obligations.ScheduleFollowsTheRecurrence := by
  refine fun ww blk => ⟨schedule_length ww blk, fun t ht => schedule_getD_of_lt_sixteen ww blk ht, fun t h16 ht => ?_⟩
  rw [schedule_getD_eq_nextScheduleWord blk h16 ht, nextScheduleWord,
    schedule_getD_sub (i := 1) blk h16 ht (by decide), schedule_getD_sub (i := 6) blk h16 ht (by decide),
    schedule_getD_sub (i := 14) blk h16 ht (by decide), schedule_getD_sub (i := 15) blk h16 ht (by decide)]

end Sys2Proof.Machine
end

section
/-! SUPPORT and PROOFS. The working variables before each round, and the rounds of one compression (spec/43_compression.md R177,
R178). -/

namespace Sys2Proof.Machine

theorem runRounds_append (ww : Width) (ps qs : List (BitVec ww.bits × BitVec ww.bits)) (x : Work ww.bits) :
    runRounds ww (ps ++ qs) x = runRounds ww qs (runRounds ww ps x) := by
  induction ps generalizing x with
  | nil => rfl
  | cons p ps ih => exact ih (round ww x p.1 p.2)

/-- The pairs (W[t], K[t]) of a block's compression, in the order of the rounds (R177). -/
def roundInputs (ww : Width) (blk : List Byte) : List (BitVec ww.bits × BitVec ww.bits) :=
  (schedule ww blk).zip (kWords ww)

@[simp] theorem roundInputs_length (ww : Width) (blk : List Byte) : (roundInputs ww blk).length = ww.rounds := by
  rw [roundInputs, List.length_zip, schedule_length, kWords_length, Nat.min_self]

theorem roundInputs_getElem (ww : Width) (blk : List Byte) {t : Nat} (ht : t < (roundInputs ww blk).length) :
    (roundInputs ww blk)[t] = ((schedule ww blk).getD t 0, (kWords ww).getD t 0) := by
  have hround : t < ww.rounds := roundInputs_length ww blk ▸ ht
  rw [List.getD_eq_getElem _ _ (by rwa [schedule_length]), List.getD_eq_getElem _ _ (by rwa [kWords_length])]
  exact List.getElem_zip

/-- The working variables after the first t rounds of a block's compression from H (R177). -/
def workAfter (ww : Width) (hs : Vector (BitVec ww.bits) 8) (blk : List Byte) (t : Nat) : Work ww.bits :=
  runRounds ww ((roundInputs ww blk).take t) (loadWork hs)

theorem workAfter_zero (ww : Width) (hs : Vector (BitVec ww.bits) 8) (blk : List Byte) :
    workAfter ww hs blk 0 = loadWork hs := rfl

theorem workAfter_succ {ww : Width} (hs : Vector (BitVec ww.bits) 8) (blk : List Byte) {t : Nat} (ht : t < ww.rounds) :
    workAfter ww hs blk (t + 1) =
      round ww (workAfter ww hs blk t) ((schedule ww blk).getD t 0) ((kWords ww).getD t 0) := by
  have hlt : t < (roundInputs ww blk).length := by rwa [roundInputs_length]
  rw [workAfter, List.take_succ_eq_append_getElem hlt, runRounds_append, roundInputs_getElem]
  rfl

/-- R rounds use up every pair (R177). -/
theorem compress_eq_feedForward_workAfter (ww : Width) (hs : Vector (BitVec ww.bits) 8) (blk : List Byte) :
    compress ww hs blk = feedForward hs (workAfter ww hs blk ww.rounds) := by
  rw [workAfter, List.take_of_length_le (roundInputs_length ww blk).le]
  rfl

/-- Settles O52: the working variables after the first t rounds are the sequence. -/
theorem compressRunsEveryRoundAndFeedsForward : Obligations.CompressRunsEveryRoundAndFeedsForward :=
  fun ww hs blk => ⟨workAfter ww hs blk, workAfter_zero ww hs blk, fun _ ht => workAfter_succ hs blk ht,
    compress_eq_feedForward_workAfter ww hs blk⟩

end Sys2Proof.Machine
end

section
/-! SUPPORT and PROOFS. The errors (spec/60_exceptions.md R221 to R226): what the fault entry writes, which error is raised, and
that a step which answers an error code has done nothing else. -/

namespace Sys2Proof.Machine

/-! ## The fault entry (R224) -/

/-- The fault entry as R224 writes it. -/
theorem raiseError_eq (e : EngineError) (s : State) : raiseError e s = { s with
    err := (if s.status ≠ .faulted then e.code else s.err), status := .faulted,
    sent := s.sent ++ [{ code := e.code, digest := [] }] } := by
  rw [ite_not]
  rfl

/-- A later error writes nothing but the response (R226). -/
theorem raiseError_of_faulted (e : EngineError) {s : State} (hf : s.status = .faulted) :
    raiseError e s = respond e.code [] s := by
  rw [raiseError, errAfter, if_pos hf, ← hf]

/-! ## One error per command (R221 to R223, R225) -/

/-- Settles O37. -/
theorem commandsOutsideActiveRaiseInvalidEngineState : Obligations.CommandsOutsideActiveRaiseInvalidEngineState :=
  fun _ hs _ hi => exec_inactive hs hi

/-- Settles O12: the word's 4 bytes decode to the illegal word and leave the rest. -/
theorem illegalWordRaisesIllegalCommand : Obligations.IllegalWordRaisesIllegalCommand := by
  intro s w rest why hs hw
  have hf : fetch s = .illegal why rest := by rw [fetch, hs, decodeStream_word, hw]
  exact step_illegal hf

/-- Settles O39: a command is executed only when its word decodes, and INPUT looks at LEN only while ACTIVE. -/
theorem errorPrecedence : Obligations.ErrorPrecedence :=
  ⟨fun _ _ _ hd => ⟨_, step_illegal hd, raiseError_sent .illegalCommand _⟩,
    fun _ p hs => ⟨_, exec_input_inactive p hs, raiseError_sent .invalidEngineState _⟩,
    fun _ _ ha hover => ⟨_, exec_input_overflow ha hover, raiseError_sent .lengthOverflow _⟩⟩

/-- Settles O27: the two limits are LMAX of the two families, and HASH has no length check. -/
theorem overlongInputRaisesLengthOverflow : Obligations.OverlongInputRaisesLengthOverflow := by
  refine ⟨fun s payload ha hover => ?_, fun s t hexec => ?_⟩
  · have hlmax : s.var.lmax < s.len.toNat + 8 * payload.length := by
      cases hv : s.var <;> rw [hv] at hover <;> exact hover
    rw [exec_input_overflow ha hlmax, raiseError_eq, if_pos (by simp [ha])]
    rfl
  · by_cases ha : s.status = .active
    · obtain rfl : afterHash s = t := Host.Outcome.next.inj ((exec_hash_ok ha).symm.trans hexec)
      exact ⟨_, afterHash_sent s, (by decide : okCode ≠ 0x01#8)⟩
    · obtain rfl : raiseError .invalidEngineState s = t :=
        Host.Outcome.next.inj ((exec_hash_inactive ha).symm.trans hexec)
      exact ⟨_, raiseError_sent _ s, (by decide : EngineError.invalidEngineState.code ≠ 0x01#8)⟩

/-! ## Errors are precise (R224) -/

/-- A command answers 0x00, or it does nothing but raise an error. -/
theorem exec_ok_or_raises {i : Instr} {s t : State} (h : exec i s = .next t) :
    (∃ d, t.sent = s.sent ++ [{ code := okCode, digest := d }]) ∨ ∃ e, t = raiseError e s := by
  obtain ⟨t', ht', hcases⟩ := exec_cases i s
  obtain rfl : t' = t := Host.Outcome.next.inj (ht'.symm.trans h)
  rcases hcases with ⟨v, -, rfl⟩ | ⟨p, -, -, -, rfl⟩ | ⟨-, -, rfl⟩ | ⟨e, rfl, -⟩
  · exact .inl ⟨_, afterInit_sent v s⟩
  · exact .inl ⟨_, afterInput_sent p s⟩
  · exact .inl ⟨_, afterHash_sent s⟩
  · exact .inr ⟨e, rfl⟩

/-- A step answers 0x00, or it does nothing but consume its bytes and raise an error. -/
theorem step_ok_or_raises {s t : State} (h : step s = .next t) :
    (∃ d, t.sent = s.sent ++ [{ code := okCode, digest := d }]) ∨
    ∃ e rest, ((∃ i, decodeStream s.stream = .command i rest) ∨ (∃ why, decodeStream s.stream = .illegal why rest)) ∧
      t = raiseError e (consumeTo rest s) := by
  rcases step_cases h with ⟨i, rest, hd, hexec⟩ | ⟨why, rest, hd, rfl⟩
  · rcases exec_ok_or_raises hexec with hok | ⟨e, rfl⟩
    · exact .inl hok
    · exact .inr ⟨e, rest, .inl ⟨i, hd⟩, rfl⟩
  · exact .inr ⟨.illegalCommand, rest, .inr ⟨why, hd⟩, rfl⟩

/-- Settles O38: a step that has answered an error code is a fault entry after the bytes were consumed. -/
theorem faultEntryWritesOnlyErrAndStatus : Obligations.FaultEntryWritesOnlyErrAndStatus := by
  refine ⟨raiseError_eq, fun s t r hstep hsent hcode => ?_⟩
  rcases step_ok_or_raises hstep with ⟨d, hok⟩ | ⟨e, rest, hd, rfl⟩
  · obtain rfl : r = { code := okCode, digest := d } := by simpa using hsent.symm.trans hok
    exact absurd rfl hcode
  · obtain rfl : r = { code := e.code, digest := [] } := by simpa using hsent.symm
    exact ⟨rest, hd, raiseError_eq e (consumeTo rest s)⟩

/-! ## FAULTED is left through INIT alone (R226) -/

/-- Settles O18: in FAULTED the fault entry only responds. -/
theorem faultedInstanceStaysFaulted : Obligations.FaultedInstanceStaysFaulted := by
  refine fun s hf => ⟨fun i rest hd hi => ?_, fun why rest hd => ?_, fun v rest hd => ?_⟩
  · rw [step_command hd, exec_inactive (by simp [hf]) hi, raiseError_of_faulted (s := consumeTo rest s) _ hf]
    rfl
  · rw [step_illegal hd, execIllegal, raiseError_of_faulted (s := consumeTo rest s) _ hf]
    rfl
  · exact ⟨afterInit v (consumeTo rest s), step_command hd, rfl, rfl, rfl, rfl, rfl, rfl⟩

end Sys2Proof.Machine
end

section
/-! SUPPORT and PROOFS. Reset and hazards (spec/70_reset_and_hazards.md): what reset and INIT write (R250, R252, R253), what
reset leaves unspecified (R251), and the engine's waiting on an incomplete command (R258). -/

namespace Sys2Proof.Machine

/-! ## Registers left unspecified at reset (R251) -/

/-- What the host cannot tell apart now it cannot tell apart after any number of steps: step by step, such states either move to
such states or are stuck for the same reason. -/
theorem State.SameToHost.observe_run {s t : State} (h : s.SameToHost t) (k : Nat) :
    observe (Host.Core.run core k s) = observe (Host.Core.run core k t) := by
  induction k generalizing s t with
  | zero => simpa [run_zero, observe] using h.sent
  | succ k ih =>
    obtain ⟨hnext, hfault⟩ := unreadRegistersStayUnread s t h
    cases hs : step s with
    | next s' =>
      obtain ⟨t', ht, h'⟩ := hnext s' hs
      rw [run_next k hs, run_next k ht, ih h']
    | fault r => rw [run_fault k hs, run_fault k (hfault r hs)]
    | refused r => exact absurd hs (noStepIsRefused s r)

/-- Outside ACTIVE the host sees STATUS and ERR alone of the registers (R103, R224). -/
theorem State.SameToHost.of_not_active {s t : State} (hs : s.status ≠ .active) (hstatus : s.status = t.status)
    (herr : s.err = t.err) (hstream : s.stream = t.stream) (hsent : s.sent = t.sent) : s.SameToHost t :=
  ⟨hstream, hsent, hstatus, herr, fun ha => absurd ha hs⟩

/-- Settles O2: UNINIT states that agree so are the same to the host, and stay so along every run. -/
theorem unspecifiedResetValuesAreNeverObserved : Obligations.UnspecifiedResetValuesAreNeverObserved :=
  fun _ _ hs ht herr hstream hsent k =>
    (State.SameToHost.of_not_active (by simp [hs]) (hs.trans ht.symm) herr hstream hsent).observe_run k

/-! ## Incomplete commands (R258) -/

/-- The engine is stuck exactly where the decoder asks for more bytes: every command and every illegal word is executed. -/
theorem step_ne_next_iff {s : State} :
    (∀ t, step s ≠ .next t) ↔ decodeStream s.stream = .partialWord ∨ decodeStream s.stream = .partialPayload := by
  change _ ↔ fetch s = .partialWord ∨ fetch s = .partialPayload
  cases hf : fetch s with
  | command i rest =>
    obtain ⟨t, ht, -⟩ := exec_cases i (consumeTo rest s)
    simp [step_command hf, ht]
  | illegal why rest => simp [step_illegal hf]
  | partialWord => simp [step, hf]
  | partialPayload => simp [step, hf]

theorem takePayload_eq_partialPayload_iff {n : Nat} {bytes : List Byte} :
    takePayload n bytes = .partialPayload ↔ bytes.length < n := by
  rw [takePayload, ← Nat.not_le]
  split <;> simp [*]

/-- After a whole word, only an INPUT's payload can be incomplete. -/
theorem decodeStream_word_partial_iff {w : CommandWord} {rest : List Byte} :
    (decodeStream (beBytes 4 w.toNat ++ rest) = .partialWord ∨
      decodeStream (beBytes 4 w.toNat ++ rest) = .partialPayload) ↔
    ∃ n, decodeWord w = .input n ∧ rest.length < n.toNat := by
  rw [decodeStream_word]
  cases decodeWord w with
  | init v => simp
  | input n =>
    have hne : takePayload n.toNat rest ≠ .partialWord := by rw [takePayload]; split <;> simp
    simp [hne, takePayload_eq_partialPayload_iff]
  | hash => simp
  | illegal why => simp

/-- R258's two situations: fewer than 4 bytes of a word, or an INPUT word and fewer than N payload bytes. -/
def IsIncomplete (bytes : List Byte) : Prop :=
  bytes.length < 4 ∨
  ∃ (w : CommandWord) (n : BitVec 28) (rest : List Byte), bytes = beBytes 4 w.toNat ++ rest ∧
    decodeWord w = .input n ∧ rest.length < n.toNat

theorem decodeStream_partial_iff {bytes : List Byte} :
    (decodeStream bytes = .partialWord ∨ decodeStream bytes = .partialPayload) ↔ IsIncomplete bytes := by
  rcases Nat.lt_or_ge bytes.length 4 with hshort | hlong
  · exact iff_of_true (.inl (decodeStream_short hshort)) (.inl hshort)
  · constructor
    · intro hpartial
      obtain ⟨w, hw⟩ := exists_word hlong
      rw [hw] at hpartial
      obtain ⟨n, hd, hn⟩ := decodeStream_word_partial_iff.mp hpartial
      exact .inr ⟨w, n, _, hw, hd, hn⟩
    · rintro (hshort | ⟨w, n, rest, rfl, hd, hn⟩)
      · omega
      · exact decodeStream_word_partial_iff.mpr ⟨n, hd, hn⟩

theorem step_ne_next_iff_isIncomplete {s : State} : (∀ t, step s ≠ .next t) ↔ IsIncomplete s.stream :=
  step_ne_next_iff.trans decodeStream_partial_iff

/-- A command's bytes short of any at the end are incomplete: they end in the word, or in the payload of an INPUT. -/
theorem isIncomplete_of_encode_eq_append {i : Instr} (hwf : i.wellFormed = true) {bytes more : List Byte}
    (hmore : more ≠ []) (h : encode i = bytes ++ more) : IsIncomplete bytes := by
  rcases Nat.lt_or_ge bytes.length 4 with hshort | hlong
  · exact .inl hshort
  · obtain ⟨w, hw⟩ := exists_word hlong
    generalize bytes.drop 4 = arrived at hw
    rw [hw, encode, List.append_assoc] at h
    obtain ⟨hword, hpayload⟩ := List.append_inj h (by rw [beBytes_length, beBytes_length])
    cases i with
    | init v => exact absurd (List.append_eq_nil_iff.mp hpayload.symm).2 hmore
    | input payload =>
      have hfits : payload.length ≤ Config.nmax := of_decide_eq_true hwf
      have harrived : payload = arrived ++ more := hpayload
      refine .inr ⟨_, _, arrived, hw.trans (by rw [← hword, encodeWord]), decodeWord_inputWord _, ?_⟩
      rw [payloadCount_toNat hfits, harrived, List.length_append]
      have hpos := List.length_pos_iff.mpr hmore
      omega
    | hash => exact absurd (List.append_eq_nil_iff.mp hpayload.symm).2 hmore

/-- Settles O13: the decoder asks for more exactly on an incomplete command, as an encoding short of its last bytes is, and a
command runs from the bytes of its encoding. -/
theorem incompleteCommandWaitsForItsRest : Obligations.IncompleteCommandWaitsForItsRest := by
  refine ⟨fun s => step_ne_next_iff_isIncomplete, fun s i more hwf hmore hbytes => ⟨?waits, ?runs⟩⟩
  case waits => exact step_ne_next_iff_isIncomplete.mpr (isIncomplete_of_encode_eq_append hwf hmore hbytes)
  case runs =>
    have hstream : (s.receive more).stream = encode i ++ [] := by rw [receive_stream, ← hbytes, List.append_nil]
    rw [step_of_encode hwf hstream, consumeTo_receive]
    rfl

/-! ## Reset (R250, R253) and INIT (R252) -/

/-- Settles O1: the model writes STATUS, ERR and both ends of the host interface at reset just so. -/
theorem resetIsUninitWithoutError : Obligations.ResetIsUninitWithoutError := ⟨rfl, rfl, rfl, rfl⟩

/-- Settles O19: the data registers are zero, ERR is 0x00, and in UNINIT nothing is asked of BUFLEN. -/
theorem invariantAtReset : Obligations.InvariantAtReset where
  widths := ⟨by decide, Nat.zero_le _⟩
  err := ⟨fun _ => rfl, nofun⟩
  buffer := nofun

/-- Settles O21: INIT has one outcome, whatever the state. -/
theorem initCreatesAFreshInstance : Obligations.InitCreatesAFreshInstance := exec_init

end Sys2Proof.Machine
end

section
/-! SUPPORT and PROOFS. The constant tables are fractional parts of roots of primes (spec/44_variant_config.md R200). -/

namespace Sys2Proof.Machine

/-! ## The first 80 primes -/

/-- The numbers below n that satisfy p, in order, are the values of p counted from 0. -/
theorem filter_range_eq_map_nth (p : Nat → Prop) [DecidablePred p] (n : Nat) :
    (List.range n).filter p = (List.range (Nat.count p n)).map (Nat.nth p) := by
  induction n with
  | zero => simp
  | succ n ih =>
    rw [List.range_succ, List.filter_append, ih, Nat.count_succ]
    by_cases hn : p n
    · simp [hn, List.range_succ, Nat.nth_count hn]
    · simp [hn]

/-- No number from 2 to b - 1 other than n divides n. -/
@[reducible] def PassesTrialDivision (b n : Nat) : Prop :=
  2 ≤ n ∧ ∀ m < b, 2 ≤ m → m < n → ¬ m ∣ n

/-- Divisors up to the square root are enough to try. -/
theorem prime_iff_passesTrialDivision {b n : Nat} (hb : n < b * b) : n.Prime ↔ PassesTrialDivision b n := by
  constructor
  · intro hprime
    obtain ⟨htwo, hdvd⟩ := Nat.prime_def_lt'.mp hprime
    exact ⟨htwo, fun m _ => hdvd m⟩
  · rintro ⟨htwo, hdvd⟩
    refine Nat.prime_def_le_sqrt.mpr ⟨htwo, fun m hm hsqrt => ?_⟩
    exact hdvd m (hsqrt.trans_lt (Nat.sqrt_lt.mpr hb)) hm (hsqrt.trans_lt (Nat.sqrt_lt_self htwo))

/-- The first 80 primes, one for each round constant (R200). -/
def leadingPrimes : List Nat :=
  [2, 3, 5, 7, 11, 13, 17, 19, 23, 29, 31, 37, 41, 43, 47, 53, 59, 61, 67, 71] ++
  [73, 79, 83, 89, 97, 101, 103, 107, 109, 113, 127, 131, 137, 139, 149, 151, 157, 163, 167, 173] ++
  [179, 181, 191, 193, 197, 199, 211, 223, 227, 229, 233, 239, 241, 251, 257, 263, 269, 271, 277, 281] ++
  [283, 293, 307, 311, 313, 317, 331, 337, 347, 349, 353, 359, 367, 373, 379, 383, 389, 397, 401, 409]

/-- As 410 is below the square of 21, trial division by the numbers below 21 finds the primes below 410. -/
theorem filter_prime_range : (List.range 410).filter Nat.Prime = leadingPrimes := by
  have htrial : ∀ n ∈ List.range 410, decide n.Prime = decide (PassesTrialDivision 21 n) := fun n hn =>
    decide_eq_decide.mpr (prime_iff_passesTrialDivision ((List.mem_range.mp hn).trans (by decide)))
  rw [List.filter_congr htrial]
  decide +kernel

theorem leadingPrimes_length : leadingPrimes.length = 80 := rfl

theorem map_nth_prime_range : (List.range 80).map (Nat.nth Nat.Prime) = leadingPrimes := by
  have hmap := (filter_range_eq_map_nth Nat.Prime 410).symm.trans filter_prime_range
  have hcount : Nat.count Nat.Prime 410 = 80 := by
    rw [← leadingPrimes_length, ← hmap, List.length_map, List.length_range]
  exact hcount ▸ hmap

theorem leadingPrimes_getD {t : Nat} (ht : t < 80) : leadingPrimes.getD t 0 = Nat.nth Nat.Prime t := by
  rw [← map_nth_prime_range, List.getD_eq_getElem _ _ (by simpa using ht), List.getElem_map, List.getElem_range]

/-! ## Fractional parts of roots -/

/-- The root of a with k as its first w fractional bits, scaled by 2^w. -/
def scaledRoot (n w a k : Nat) : Nat := Nat.nthRoot n a * 2 ^ w + k

/-- k is frac_w of the n-th root of a: the scaled root is exact to its last bit (R200). -/
@[reducible] def IsRootFraction (n w a k : Nat) : Prop :=
  k < 2 ^ w ∧ scaledRoot n w a k ^ n ≤ a * 2 ^ (w * n) ∧ a * 2 ^ (w * n) < (scaledRoot n w a k + 1) ^ n

theorem IsRootFraction.exists_root {n w a k : Nat} (h : IsRootFraction n w a k) :
    ∃ c, c ^ n ≤ a * 2 ^ (w * n) ∧ a * 2 ^ (w * n) < (c + 1) ^ n ∧ k = c % 2 ^ w := by
  obtain ⟨hk, hle, hlt⟩ := h
  exact ⟨scaledRoot n w a k, hle, hlt, by rw [scaledRoot, Nat.mul_add_mod', Nat.mod_eq_of_lt hk]⟩

/-! ## The tables (R194 to R199) -/

theorem kWords32_isRootFraction {t : Nat} (ht : t < 64) :
    IsRootFraction 3 32 (Nat.nth Nat.Prime t) ((kWords .w32).getD t 0).toNat := by
  rw [← leadingPrimes_getD (by omega)]
  revert t
  decide +kernel

theorem kWords64_isRootFraction {t : Nat} (ht : t < 80) :
    IsRootFraction 3 64 (Nat.nth Nat.Prime t) ((kWords .w64).getD t 0).toNat := by
  rw [← leadingPrimes_getD ht]
  revert t
  decide +kernel

/-- The first 64 words of the 64-bit table, cut to their top 32 bits, are the 32-bit table. -/
theorem kWords32_eq_kWords64_div {t : Nat} (ht : t < 64) :
    ((kWords .w32).getD t 0).toNat = ((kWords .w64).getD t 0).toNat / 2 ^ 32 := by
  revert t
  decide +kernel

theorem ivCells_sha256_isRootFraction (i : Fin 8) :
    IsRootFraction 2 32 (Nat.nth Nat.Prime i) (ivCells .sha256)[i].toNat := by
  rw [← leadingPrimes_getD (by omega)]
  revert i
  decide

theorem ivCells_sha512_isRootFraction (i : Fin 8) :
    IsRootFraction 2 64 (Nat.nth Nat.Prime i) (ivCells .sha512)[i].toNat := by
  rw [← leadingPrimes_getD (by omega)]
  revert i
  decide

/-- SHA-384 starts at the ninth prime. -/
theorem ivCells_sha384_isRootFraction (i : Fin 8) :
    IsRootFraction 2 64 (Nat.nth Nat.Prime (i + 8)) (ivCells .sha384)[i].toNat := by
  rw [← leadingPrimes_getD (by omega)]
  revert i
  decide

/-- Each word of SHA-224 is the low half of SHA-384's. -/
theorem ivCells_sha224_eq_sha384_mod (i : Fin 8) :
    (ivCells .sha224)[i].toNat = (ivCells .sha384)[i].toNat % 2 ^ 32 := by
  revert i
  decide

/-- Settles O55: each word of a table is frac_w of its prime's root. -/
theorem constantsAreRootsOfPrimes : Obligations.ConstantsAreRootsOfPrimes :=
  ⟨Nat.nth Nat.Prime, fun _ => rfl,
    fun _ ht => (kWords32_isRootFraction ht).exists_root,
    fun _ ht => (kWords64_isRootFraction ht).exists_root,
    fun _ ht => kWords32_eq_kWords64_div ht,
    fun i => (ivCells_sha256_isRootFraction i).exists_root,
    fun i => (ivCells_sha512_isRootFraction i).exists_root,
    fun i => (ivCells_sha384_isRootFraction i).exists_root,
    ivCells_sha224_eq_sha384_mod⟩

end Sys2Proof.Machine
end

section
/-! SUPPORT and PROOFS. Ch and Maj (spec/43_compression.md R175), one round (R176), the schedule of the all-zero block
(spec/42_scheduler.md R156), and the parameters of the variants (spec/00_scope.md R9, R11). -/

namespace Sys2Proof.Machine

/-! ## Ch and Maj (R175) -/

theorem ch_getLsbD {w i : Nat} (x y z : BitVec w) (hi : i < w) :
    (ch x y z).getLsbD i = if x.getLsbD i then y.getLsbD i else z.getLsbD i := by
  rw [ch, BitVec.getLsbD_xor, BitVec.getLsbD_and, BitVec.getLsbD_and, BitVec.getLsbD_not, decide_eq_true hi]
  cases x.getLsbD i <;> simp

theorem maj_getLsbD {w : Nat} (x y z : BitVec w) (i : Nat) :
    (maj x y z).getLsbD i =
      decide (2 ≤ (x.getLsbD i).toNat + (y.getLsbD i).toNat + (z.getLsbD i).toNat) := by
  rw [maj, BitVec.getLsbD_xor, BitVec.getLsbD_xor, BitVec.getLsbD_and, BitVec.getLsbD_and, BitVec.getLsbD_and]
  generalize x.getLsbD i = a, y.getLsbD i = b, z.getLsbD i = c
  revert a b c
  decide

/-- Settles O47. -/
theorem chChoosesAndMajVotes : Obligations.ChChoosesAndMajVotes :=
  fun _ x y z i hi => ⟨ch_getLsbD x y z hi, maj_getLsbD x y z i⟩

/-! ## One round (R176) -/

/-- Settles O51: T1 and T2 are computed from the values before the round. -/
theorem roundUpdatesAAndE : Obligations.RoundUpdatesAAndE := by
  intro ww a b c d e f g h wt kt
  rw [round, temp1, temp2]

/-! ## The schedule of the all-zero block (R156) -/

theorem beWord_replicate_zero (n : Nat) : beWord (List.replicate n 0#8) = 0 := by
  induction n with
  | zero => rfl
  | succ n ih => rw [List.replicate_succ, beWord_cons, ih]; simp

theorem parseBlock_replicate_zero (ww : Width) (n : Nat) :
    parseBlock ww (List.replicate n 0#8) = List.replicate 16 0 := by
  refine List.eq_replicate_iff.mpr ⟨parseBlock_length _ _, fun x hx => ?_⟩
  obtain ⟨j, -, rfl⟩ := List.mem_map.mp hx
  rw [blockWord, List.drop_replicate, List.take_replicate, beWord_replicate_zero]
  rfl

theorem smallSigma0_zero (ww : Width) : smallSigma0 ww 0 = 0 := by cases ww <;> decide

theorem smallSigma1_zero (ww : Width) : smallSigma1 ww 0 = 0 := by cases ww <;> decide

theorem nextScheduleWord_replicate_zero (ww : Width) (n : Nat) : nextScheduleWord ww (List.replicate n 0) = 0 := by
  have hword (i : Nat) : (List.replicate n (0 : BitVec ww.bits)).getD i 0 = 0 := by
    rw [List.getD_eq_getElem?_getD, List.getElem?_getD_replicate_default_eq]
  simp only [nextScheduleWord, hword, smallSigma0_zero, smallSigma1_zero, add_zero]

theorem extendSchedule_replicate_zero (ww : Width) (k n : Nat) :
    extendSchedule ww k (List.replicate n 0) = List.replicate (n + k) 0 := by
  induction k with
  | zero => rfl
  | succ k ih => rw [extendSchedule_succ, ih, nextScheduleWord_replicate_zero]; rfl

/-- Settles O50: zero words give a zero next word. -/
theorem zeroBlockHasZeroSchedule : Obligations.ZeroBlockHasZeroSchedule := by
  intro v
  rw [schedule, parseBlock_replicate_zero, List.reverse_replicate, extendSchedule_replicate_zero, List.reverse_replicate,
    Nat.add_sub_cancel' (sixteen_le_rounds _)]

/-! ## The parameters of the variants (R9, R11) -/

/-- Settles O53: R9's table by variant; wb, Lb and LMAX are defined as R11 derives them. -/
theorem variantParameters : Obligations.VariantParameters := by
  refine ⟨fun v => ?table, fun v => ⟨rfl, rfl, rfl⟩⟩
  case table => cases v <;> rfl

end Sys2Proof.Machine
end
